-- ==== Sys2Proof/Word.lean ====
section
/-! DEFINITION. The block's word types (spec/00_scope.md R8): a byte, a half-word, the 36-bit command word. -/

namespace Sys2Proof

/-- "A byte is an unsigned 8-bit value 0..255" (00_scope.md R8). -/
abbrev Byte := BitVec 8

/-- "A half-word (used only for the CRC and the length) is an unsigned 16-bit value" (00_scope.md R8). -/
abbrev Half := BitVec 16

/-- The command word of 30_encoding.md R56. -/
abbrev CmdWord := BitVec 36

end Sys2Proof
end

