-- ==== Sys2Proof/Config.lean ====
section
/-! DEFINITION. The build-time parameters of one copy of the block (spec/00_scope.md R5, R6) and the free values
for bytes that nothing has written (spec/93_implementation_defined.md U4). -/

namespace Sys2Proof

/-- The open build-time parameters of 00_scope.md R5. They stand as data in `State.cfg`, which no step writes, so
that a statement about every state is a statement about every value of them (92 D1 to D3). -/
structure Config where
  /-- `PREAMBLE[0]` -/
  preamble0 : Byte
  /-- `PREAMBLE[1]` -/
  preamble1 : Byte
  /-- `PREAMBLE[2]` -/
  preamble2 : Byte
  /-- `MAX_PAYLOAD` -/
  maxPayload : Nat
  /-- `CAP` -/
  cap : Nat
deriving DecidableEq, Repr

/-- 00_scope.md R6: a configuration is well formed. (Each preamble byte is in 0..255 by its type.) -/
def Config.wf (c : Config) : Bool :=
  decide (c.maxPayload ≤ 65535) && decide (11 + c.maxPayload ≤ c.cap)

/-- The default capacity of 00_scope.md R5: `CAP = 2 * (10 + MAX_PAYLOAD)`. -/
def defaultCap (maxPayload : Nat) : Nat := 2 * (10 + maxPayload)

/-- Configuration TC-A of 95_test_vectors.md section 0, "default for all vectors". DESIGN CHOICE (log entry 1): the spec
leaves the three parameters open; `State.reset` needs some value for them. -/
def configTcA : Config where
  preamble0 := 0xAA
  preamble1 := 0x55
  preamble2 := 0xC3
  maxPayload := 16
  cap := defaultCap 16

/-- What index `index` of the receiver's working buffer holds when nothing has been written to it since hardware
reset number `epoch`: any value (93 U4, 10_state.md R11). A free value: nothing constrains it (log entry 5). -/
opaque freeBufByte (epoch index : Nat) : Byte

/-- The same for the serializer's frame buffer `txf` (93 U4, 10_state.md R17; log entry 5). -/
opaque freeTxByte (epoch index : Nat) : Byte

end Sys2Proof
end

