-- ==== Sys2Proof/Syntax.lean ====
section
/-! DEFINITION. What the block can be asked to do: one constructor per row of spec/opcode_table.json, the encoded
forms in which a row is presented, and the named receiver states (spec/10_state.md R23). -/

namespace Sys2Proof

/-- The operations of the block, in the order of spec/opcode_table.json: six commands, two reserved codes, nine
receiver transitions. -/
inductive Instr where
  /-- `SET_OWN a` (43_addressing_config.md R120). -/
  | setOwn (a : Byte)
  /-- `SET_BCAST a` (43_addressing_config.md R121). -/
  | setBcast (a : Byte)
  /-- `FEED_BYTE b` (42_frame_receiver.md R90). -/
  | feedByte (b : Byte)
  /-- `FEED_BUF n, data` (42_frame_receiver.md R110); `n` is the length of `data` (30_encoding.md R59: "exactly `n`
  bytes"). -/
  | feedBuf (data : List Byte)
  /-- `SEND a, b, pv, n, data` (41_frame_serializer.md R80): destination, message type, payload length, and the
  payload operand, absent exactly when `pv = 0`. The operand may be longer than `n` (R82 j). -/
  | send (dest type : Byte) (n : Half) (payload : Option (List Byte))
  /-- `CRC16 n, data` (40_crc16.md R72); `n` is the length of `data`. -/
  | crc16 (data : List Byte)
  /-- Operation code 0, reserved (30_encoding.md R58). -/
  | reservedOp0
  /-- Operation code 7, reserved (30_encoding.md R58). -/
  | reservedOp7
  /-- `RX_P0(b)` (42_frame_receiver.md R93). -/
  | rxP0 (b : Byte)
  /-- `RX_P1(b)` (42_frame_receiver.md R94). -/
  | rxP1 (b : Byte)
  /-- `RX_P2(b)` (42_frame_receiver.md R95). -/
  | rxP2 (b : Byte)
  /-- `RX_SRC(b)` (42_frame_receiver.md R96). -/
  | rxSrc (b : Byte)
  /-- `RX_TGT(b)` (42_frame_receiver.md R97). -/
  | rxTgt (b : Byte)
  /-- `RX_TYPE(b)` (42_frame_receiver.md R98). -/
  | rxType (b : Byte)
  /-- `RX_LENH(b)` (42_frame_receiver.md R99). -/
  | rxLenH (b : Byte)
  /-- `RX_LENL(b)` (42_frame_receiver.md R100). -/
  | rxLenL (b : Byte)
  /-- `RX_ACC(b)` (42_frame_receiver.md R101). -/
  | rxAcc (b : Byte)
deriving DecidableEq, Repr

/-- The nine named states of the receiver (10_state.md R23). -/
inductive Position where
  | awaitPreamble0
  | awaitPreamble1
  | awaitPreamble2
  | sourceAddr
  | targetAddr
  | messageType
  | lengthHigh
  | lengthLow
  | accumulatePayloadAndCrc
deriving DecidableEq, Repr

/-- What is presented to the block, in the two formats of spec/opcode_table.json. -/
inductive Encoded where
  /-- Format CMD36: a command word and its data operand (30_encoding.md R56, R59); `[]` where there is none. -/
  | cmd (word : CmdWord) (data : List Byte)
  /-- Format RXPOS: one byte fed to the receiver; the operation is selected by `widx` (30_encoding.md R61). DESIGN
  CHOICE (log entry 3): the block receives it inside `FEED_BYTE`; presented alone it has the same effect. -/
  | rxByte (b : Byte)
deriving DecidableEq, Repr

end Sys2Proof
end

