-- ==== Sys2Proof/WellFormed.lean ====
section
/-! DEFINITION. Which operations the encodings of spec/30_encoding.md can carry: the 16-bit length field `n` bounds the
data operand of `FEED_BUF` and `CRC16` (R59, 92 D19). -/

namespace Sys2Proof

/-- An operation that a command word and data operand can present. `SEND` has no check here: its operand may be of any
length (R59: no byte of it is read when the command fails), and its length field is a half-word by its type. -/
def Instr.wf : Instr → Bool
  | .setOwn _ => true
  | .setBcast _ => true
  | .feedByte _ => true
  | .feedBuf data => decide (data.length ≤ 65535)
  | .send _ _ _ _ => true
  | .crc16 data => decide (data.length ≤ 65535)
  | .reservedOp0 => true
  | .reservedOp7 => true
  | .rxP0 _ => true
  | .rxP1 _ => true
  | .rxP2 _ => true
  | .rxSrc _ => true
  | .rxTgt _ => true
  | .rxType _ => true
  | .rxLenH _ => true
  | .rxLenL _ => true
  | .rxAcc _ => true

end Sys2Proof
end

