-- ==== Sys2Proof/Decode.lean ====
section
/-! DEFINITION. The decoder (spec/30_encoding.md R56, R57, R58, R59, R61), total on every word, data operand and
position, and after it the encoder, written from the same tables. -/

namespace Sys2Proof

/-- Why a presented command is rejected: 30_encoding.md R59 says such an operand does not exist. -/
inductive DecodeError where
  /-- `FEED_BUF` or `CRC16` whose data operand does not have exactly `n` bytes. -/
  | dataLengthMismatch
  /-- A data operand presented with a command that has none. -/
  | unexpectedData
deriving DecidableEq, Repr

/-! ### The command word (30_encoding.md R56) -/

/-- `op`, bits 35:33. -/
def opField (w : CmdWord) : BitVec 3 := w.extractLsb' 33 3

/-- `pv`, bit 32. -/
def pvField (w : CmdWord) : BitVec 1 := w.extractLsb' 32 1

/-- `a`, bits 31:24. -/
def aField (w : CmdWord) : Byte := w.extractLsb' 24 8

/-- `b`, bits 23:16. -/
def bField (w : CmdWord) : Byte := w.extractLsb' 16 8

/-- `n`, bits 15:0. -/
def nField (w : CmdWord) : Half := w.extractLsb' 0 16

/-- The command word with the given fields. -/
def cmdWord (op : BitVec 3) (pv : BitVec 1) (a b : Byte) (n : Half) : CmdWord :=
  op ++ pv ++ a ++ b ++ n

/-! ### Position decode (30_encoding.md R61, 10_state.md R23) -/

/-- The named state `widx` stands for. -/
def positionOf (widx : Nat) : Position :=
  match widx with
  | 0 => .awaitPreamble0
  | 1 => .awaitPreamble1
  | 2 => .awaitPreamble2
  | 3 => .sourceAddr
  | 4 => .targetAddr
  | 5 => .messageType
  | 6 => .lengthHigh
  | 7 => .lengthLow
  | _ => .accumulatePayloadAndCrc

/-- The receiver transition an incoming byte is processed by: chosen by the position alone (R61). -/
def decodePosition (p : Position) (b : Byte) : Instr :=
  match p with
  | .awaitPreamble0 => .rxP0 b
  | .awaitPreamble1 => .rxP1 b
  | .awaitPreamble2 => .rxP2 b
  | .sourceAddr => .rxSrc b
  | .targetAddr => .rxTgt b
  | .messageType => .rxType b
  | .lengthHigh => .rxLenH b
  | .lengthLow => .rxLenL b
  | .accumulatePayloadAndCrc => .rxAcc b

/-! ### The decoder -/

/-- A command that has no data operand. -/
def withoutData (data : List Byte) (i : Instr) : Except DecodeError Instr :=
  if data.isEmpty then .ok i else .error .unexpectedData

/-- A command whose data operand has exactly `n` bytes (R59). -/
def withData (n : Half) (data : List Byte) (i : Instr) : Except DecodeError Instr :=
  if data.length = n.toNat then .ok i else .error .dataLengthMismatch

/-- 30_encoding.md R57, by the operation code. Fields a command does not use are ignored (R56, 92 D30; log
entry 21). -/
def decodeCommand (w : CmdWord) (data : List Byte) : Except DecodeError Instr :=
  match (opField w).toNat with
  | 0 => withoutData data .reservedOp0
  | 1 => withoutData data (.setOwn (aField w))
  | 2 => withoutData data (.setBcast (aField w))
  | 3 => withoutData data (.feedByte (aField w))
  | 4 => withData (nField w) data (.feedBuf data)
  | 5 =>
    if pvField w = 1 then .ok (.send (aField w) (bField w) (nField w) (some data))
    else withoutData data (.send (aField w) (bField w) (nField w) none)
  | 6 => withData (nField w) data (.crc16 data)
  -- 7, the one value of three bits that is left
  | _ => withoutData data .reservedOp7

/-- What is presented, decoded at write index `widx`. -/
def decode (widx : Nat) : Encoded → Except DecodeError Instr
  | .cmd w data => decodeCommand w data
  | .rxByte b => .ok (decodePosition (positionOf widx) b)

/-! ### The encoder -/

/-- The encoded form of an operation: 30_encoding.md R57, "an assembler writes [ignored fields] as 0" (R56). -/
def encode : Instr → Encoded
  | .setOwn a => .cmd (cmdWord 1 0 a 0 0) []
  | .setBcast a => .cmd (cmdWord 2 0 a 0 0) []
  | .feedByte b => .cmd (cmdWord 3 0 b 0 0) []
  | .feedBuf data => .cmd (cmdWord 4 0 0 0 (BitVec.ofNat 16 data.length)) data
  | .send dest type n none => .cmd (cmdWord 5 0 dest type n) []
  | .send dest type n (some data) => .cmd (cmdWord 5 1 dest type n) data
  | .crc16 data => .cmd (cmdWord 6 0 0 0 (BitVec.ofNat 16 data.length)) data
  | .reservedOp0 => .cmd (cmdWord 0 0 0 0 0) []
  | .reservedOp7 => .cmd (cmdWord 7 0 0 0 0) []
  | .rxP0 b => .rxByte b
  | .rxP1 b => .rxByte b
  | .rxP2 b => .rxByte b
  | .rxSrc b => .rxByte b
  | .rxTgt b => .rxByte b
  | .rxType b => .rxByte b
  | .rxLenH b => .rxByte b
  | .rxLenL b => .rxByte b
  | .rxAcc b => .rxByte b

/-- The position that selects a receiver transition (the table's "selector"); `none` for a command, which the word
alone selects. -/
def Instr.selector : Instr → Option Position
  | .setOwn _ => none
  | .setBcast _ => none
  | .feedByte _ => none
  | .feedBuf _ => none
  | .send _ _ _ _ => none
  | .crc16 _ => none
  | .reservedOp0 => none
  | .reservedOp7 => none
  | .rxP0 _ => some .awaitPreamble0
  | .rxP1 _ => some .awaitPreamble1
  | .rxP2 _ => some .awaitPreamble2
  | .rxSrc _ => some .sourceAddr
  | .rxTgt _ => some .targetAddr
  | .rxType _ => some .messageType
  | .rxLenH _ => some .lengthHigh
  | .rxLenL _ => some .lengthLow
  | .rxAcc _ => some .accumulatePayloadAndCrc

/-! ### Words numbered as spec/opcode_table.json numbers them -/

/-- The data operand of zeros a command word takes: `n` bytes for `FEED_BUF`, `CRC16`, and `SEND` with `pv = 1`; none
for the others (R59). -/
def zeroData (w : CmdWord) : List Byte :=
  match (opField w).toNat with
  | 4 => List.replicate (nField w).toNat 0
  | 5 => if pvField w = 1 then List.replicate (nField w).toNat 0 else []
  | 6 => List.replicate (nField w).toNat 0
  | _ => []

/-- The encoded form of a table row of `nbits` bits: at most 8 bits is a byte of format RXPOS, more is a command word
of format CMD36, with its data operand zero. -/
def tableEncoded (nbits w : Nat) : Option Encoded :=
  if nbits = 0 then none
  else if nbits ≤ 8 then some (.rxByte (BitVec.ofNat 8 w))
  else some (.cmd (BitVec.ofNat 36 w) (zeroData (BitVec.ofNat 36 w)))

/-- The operation the decoder reads from a table word, at the write index of reset, 0: the nine RXPOS rows have the
same bits and differ in `widx` alone, so an 8-bit word reads as `RX_P0` (log entry 3). -/
def decodeTableWord (nbits w : Nat) : Option Instr :=
  match tableEncoded nbits w with
  | none => none
  | some e => (decode 0 e).toOption

end Sys2Proof
end

