-- ==== Sys2Proof/Machine/State.lean ====
section
/-! DEFINITION. The state of one copy of the block as plain data (spec/10_state.md), the outcomes' reasons, and the
state after hardware reset (R22). -/

namespace Sys2Proof.Machine

/-- The result of `SEND` (60_exceptions.md R130). -/
inductive SendResult where
  | ok
  | illegalLength
  | nullPayload
deriving DecidableEq, Repr

/-- What a command returns to the host (30_encoding.md R60). The other commands return nothing. -/
inductive CmdResult where
  | send (r : SendResult)
  | crc16 (checksum : Half)
deriving DecidableEq, Repr

/-- The six drop causes of 60_exceptions.md R132: ghost data of a transition, held in no field of State (R131). -/
inductive DropCause where
  | preambleMismatch
  | oversizeLength
  | crcIndexOutOfRange
  | crcMismatch
  | addressMismatch
  | corruptState
deriving DecidableEq, Repr

/-- One thing the environment presents: a hardware reset, "an input of its own and not a command word" (30_encoding.md
R63, 70 R150), or an encoded operation. -/
inductive Input where
  | hwReset
  | op (e : Encoded)
deriving DecidableEq, Repr

/-- A byte memory: its written bytes as (index, byte) pairs. Canonical form: indices strictly rising (`Memory.wf`). An
unlisted index is one that nothing has written since hardware reset: it has no value here, and reads as a free value in
the machine (93 U4, log entry 5), so no listed entry equals what an unlisted index holds. -/
abbrev Memory := List Host.Cell

/-- The canonical form of a memory: equal contents are equal lists. -/
abbrev Memory.wf (m : Memory) : Prop := m.Pairwise (fun x y => x.1 < y.1)

/-- The complete state of one copy of the block: the tuple of 10_state.md R10, the storage `txf`, the build-time
parameters, and the model's own `resOut`, `pending` and `epoch`. -/
@[ext]
structure State where
  /-- The build-time parameters (00_scope.md R5, 10_state.md R16): no step writes them. -/
  cfg : Config
  /-- The receiver's working buffer (10_state.md R11). -/
  buf : Memory
  /-- The write index, which is also the receiver's state (10_state.md R12). -/
  widx : Nat
  /-- The declared payload length (10_state.md R13). -/
  dlen : Half
  /-- `own_addr` (10_state.md R14). -/
  ownAddr : Byte
  /-- `bcast_addr` (10_state.md R15). -/
  bcastAddr : Byte
  /-- The serializer's frame buffer (10_state.md R17): storage whose contents no command observes (log entry 6),
  separate from `buf` (92 D15, log entry 18). -/
  txf : Memory
  /-- The trace of receive events, oldest first (10_state.md R20). -/
  rxOut : List (List Byte)
  /-- The trace of transmit events, oldest first (10_state.md R21). -/
  txOut : List (List Byte)
  /-- The results of `SEND` and `CRC16`, oldest first (30_encoding.md R60, 92 D23; log entry 7). -/
  resOut : List CmdResult
  /-- The model's own: what the environment presents next, oldest first (20_memory.md R39; log entry 2). -/
  pending : List Input
  /-- The model's own: how many hardware resets have happened, which makes the free values of `buf` and `txf` fresh
  (log entry 5). -/
  epoch : Nat
deriving DecidableEq, Repr

/-- Reasons the machine stops with a fault. -/
inductive Fault where
  /-- Raised by every operation that feeds a byte, in a state whose `widx` is `CAP` or more: `buf` has no such index
  (10_state.md R12: "not representable"; 00_scope.md R9). Safe: no state of the hardware is such a state (log entry 10). -/
  | bufIndexOutOfRange (index : Nat)
deriving DecidableEq, Repr

/-- Reasons the model gives no meaning. -/
inductive Refusal where
  /-- Raised by an arm of exec whose operation has no meaning yet. Safe. -/
  | notModelled (mnemonic : String)
  /-- Raised by operation codes 0 and 7: "The model refuses a command word with either code" (30_encoding.md R58).
  Safe. -/
  | reservedOpcode (op : BitVec 3)
  /-- Raised by `step` in a configuration that is not well formed: "The model refuses" it (00_scope.md R6). Safe. -/
  | illFormedConfig
  /-- Raised by `step` when the decoder rejects what is presented: a data operand that 30_encoding.md R59 says does not
  exist. Safe. -/
  | badDataOperand (e : DecodeError)
  /-- Raised by `SEND` with `pv = 1`, both checks passed and fewer than `n` payload bytes: "cannot be expressed"
  (92 D26, 30_encoding.md R59). Safe (log entry 9). -/
  | dataOperandShort
  /-- Raised by a receiver transition (an `RX_` operation) at a `widx` that does not select it (30_encoding.md R61).
  `step` never does so. Safe (log entry 4). -/
  | positionMismatch (widx : Nat)
deriving DecidableEq, Repr

/-- The state after hardware reset (10_state.md R22) of a block built with parameters `cfg`: `buf` and `txf` unspecified
(nothing written, free values); `dlen` 0 by 92 D9 (log entry 15). -/
def State.resetWith (cfg : Config) : State where
  cfg := cfg
  buf := []
  widx := 0
  dlen := 0
  ownAddr := 0x00
  bcastAddr := 0x00
  txf := []
  rxOut := []
  txOut := []
  resOut := []
  pending := []
  epoch := 0

/-- The state after hardware reset, of the block built with the parameters of TC-A (log entry 1). -/
def State.reset : State := State.resetWith configTcA

end Sys2Proof.Machine
end

