-- ==== Sys2Proof/Machine/Operands.lean ====
section
/-! DEFINITION. Operand forms and byte order: the big-endian halves of spec/20_memory.md R30 and spec/30_encoding.md R52,
`zext_16` of spec/00_scope.md R8, and the payload operand of `SEND` (spec/20_memory.md R45). -/

namespace Sys2Proof.Machine

/-- "The high byte" of a half-word, `v[15:8]` (00_scope.md R8). -/
def hiByte (v : Half) : Byte := v.extractLsb' 8 8

/-- "The low byte" of a half-word, `v[7:0]` (00_scope.md R8). -/
def loByte (v : Half) : Byte := v.extractLsb' 0 8

/-- `{h, l}`, the big-endian combine `h * 256 + l` (00_scope.md R8, 20_memory.md R30). -/
def be16 (h l : Byte) : Half := h ++ l

/-- `zext_16(b)` (00_scope.md R8). -/
def zext16 (b : Byte) : Half := b.setWidth 16

/-- The bytes a payload operand holds; none when no payload is provided (30_encoding.md R59). -/
def payloadBytes (payload : Option (List Byte)) : List Byte :=
  match payload with
  | none => []
  | some data => data

/-- The bytes `SEND` reads of its payload operand: exactly bytes 0..`n - 1`, in order (20_memory.md R45). -/
def payloadRead (n : Half) (payload : Option (List Byte)) : List Byte :=
  (payloadBytes payload).take n.toNat

/-- The operand holds the `n` bytes that a successful `SEND` reads (30_encoding.md R59). -/
def payloadLongEnough (n : Half) (payload : Option (List Byte)) : Bool :=
  decide (n.toNat ≤ (payloadBytes payload).length)

end Sys2Proof.Machine
end

