-- ==== Sys2Proof/Machine/Ops.lean ====
section
/-! DEFINITION. The named operations over the two byte memories and the registers: the primitives of spec/00_scope.md R9,
the silent drop of spec/60_exceptions.md R131 (the block's counterpart of taking an exception; there is nothing to return
from, R135), the two output events and hardware reset. -/

namespace Sys2Proof.Machine

/-! ### Byte memories -/

/-- The byte listed at an index, if any. -/
def Memory.read? (m : Memory) (i : Nat) : Option Byte :=
  match m with
  | [] => none
  | (a, v) :: rest => if a = i then some v else Memory.read? rest i

/-- Store one byte, keeping the indices strictly rising. "A write changes the one byte it addresses and nothing else"
(20_memory.md R34). -/
def Memory.write (m : Memory) (i : Nat) (v : Byte) : Memory :=
  match m with
  | [] => [(i, v)]
  | (a, w) :: rest =>
    if i < a then (i, v) :: (a, w) :: rest
    else if i = a then (i, v) :: rest
    else (a, w) :: Memory.write rest i v

/-! ### The receiver's working buffer -/

/-- `MemRead(i, 1) = buf[i]`; a byte that nothing has written is a free value (93 U4). -/
def State.readBuf (s : State) (i : Nat) : Byte :=
  (Memory.read? s.buf i).getD (freeBufByte s.epoch i)

/-- `MemRead(i, 2) = {buf[i], buf[i+1]}` (00_scope.md R9). -/
def State.readBuf16 (s : State) (i : Nat) : Half := be16 (s.readBuf i) (s.readBuf (i + 1))

/-- `buf[0 .. k - 1]`. -/
def State.bufPrefix (s : State) (k : Nat) : List Byte := (List.range k).map s.readBuf

/-- `MemWrite(i, 1, v)`. -/
def State.writeBuf (s : State) (i : Nat) (v : Byte) : State :=
  { s with buf := Memory.write s.buf i v }

/-- `Append(b)` (42_frame_receiver.md R91): store at `widx`, then advance it modulo `CAP` (92 D12;
log entry 17). -/
def State.append (s : State) (b : Byte) : State :=
  { s.writeBuf s.widx b with widx := (s.widx + 1) % s.cfg.cap }

/-- `RxReset()` (42_frame_receiver.md R92): the bytes of `buf` are left as they are (92 D10; log
entry 15). -/
def State.rxReset (s : State) : State := { s with widx := 0, dlen := 0 }

/-! ### The serializer's frame buffer -/

/-- A byte of `txf`; one that nothing has written is a free value (93 U4). -/
def State.readTx (s : State) (i : Nat) : Byte :=
  (Memory.read? s.txf i).getD (freeTxByte s.epoch i)

/-- `txf[0 .. k - 1]`. -/
def State.txPrefix (s : State) (k : Nat) : List Byte := (List.range k).map s.readTx

/-- `TxWrite(i, v)` (00_scope.md R9). -/
def State.txWrite (s : State) (i : Nat) (v : Byte) : State :=
  { s with txf := Memory.write s.txf i v }

/-- `for j: TxWrite(i + j, bytes[j])`, in order (41_frame_serializer.md R81). -/
def State.txWriteAll (s : State) (i : Nat) (bytes : List Byte) : State :=
  match bytes with
  | [] => s
  | v :: vs => (s.txWrite i v).txWriteAll (i + 1) vs

/-! ### Outputs -/

/-- `Deliver(seq)` (10_state.md R20); the event's length is the sequence's (log entry 22). -/
def State.deliver (s : State) (seq : List Byte) : State := { s with rxOut := s.rxOut ++ [seq] }

/-- `Transmit(seq)` (10_state.md R21); the event's length is the sequence's (log entry 22). -/
def State.transmit (s : State) (seq : List Byte) : State := { s with txOut := s.txOut ++ [seq] }

/-- A command's result, given to the host (30_encoding.md R60). -/
def State.giveResult (s : State) (r : CmdResult) : State := { s with resOut := s.resOut ++ [r] }

/-! ### Transitions of the receiver -/

/-- The outcome of one receiver transition: the state after it, and as ghost data the cause if it dropped
(60_exceptions.md R131: "A model may of course return the cause from its step function as ghost information"; log entry 23). -/
structure RxStep where
  state : State
  cause : Option DropCause
deriving DecidableEq, Repr

/-- A transition that drops nothing. -/
def State.accept (s : State) : RxStep := { state := s, cause := none }

/-- `drop <Cause>` (60_exceptions.md R131, R134): the parse reset, and nothing else. -/
def State.drop (s : State) (c : DropCause) : RxStep := { state := s.rxReset, cause := some c }

/-- An operation that feeds a byte runs where `widx` is an index of `buf` (10_state.md R12). -/
def State.guardBuf (s : State) (after : State) : Host.Outcome State Fault Refusal :=
  if s.widx < s.cfg.cap then .next after else .fault (.bufIndexOutOfRange s.widx)

/-- A receiver transition runs at the position that selects it (30_encoding.md R61). -/
def State.atPosition (s : State) (p : Position) (after : State) : Host.Outcome State Fault Refusal :=
  if positionOf s.widx = p then s.guardBuf after else .refused (.positionMismatch s.widx)

/-! ### Hardware reset -/

/-- Hardware reset (70_reset_and_hazards.md R150): the state of 10_state.md R22, with the build-time parameters kept,
fresh free values in `buf` and `txf`, and what the environment presents next untouched (log entry 8). -/
def State.hardwareReset (s : State) : State :=
  { State.resetWith s.cfg with pending := s.pending, epoch := s.epoch + 1 }

end Sys2Proof.Machine
end

