-- ==== Sys2Proof/Machine/Addressing.lean ====
section
/-! DEFINITION. The addressing configuration operations (spec/43_addressing_config.md). -/

namespace Sys2Proof.Machine

/-- `SET_OWN a` (43_addressing_config.md R120). -/
def execSetOwn (a : Byte) (s : State) : Host.Outcome State Fault Refusal :=
  .next { s with ownAddr := a }

/-- `SET_BCAST a` (43_addressing_config.md R121). -/
def execSetBcast (a : Byte) (s : State) : Host.Outcome State Fault Refusal :=
  .next { s with bcastAddr := a }

end Sys2Proof.Machine
end

