-- ==== Sys2Proof/Machine/Crc16.lean ====
section
/-! DEFINITION. The CRC-16 module (spec/40_crc16.md): the byte step, the function over a byte sequence, and the command
`CRC16`. -/

namespace Sys2Proof.Machine

/-- `CRC_INIT` (00_scope.md R5). UNVERIFIED, as all the source's literals (93 X1, log entry 24). -/
def crcInit : Half := 0xFFFF#16

/-- `CRC_POLY` (00_scope.md R5). -/
def crcPoly : Half := 0xA001#16

/-- One of the eight iterations of 40_crc16.md R70; the test is made on the value before the shift. -/
def crcShift (c : Half) : Half :=
  if c.getLsbD 0 then (c >>> 1) ^^^ crcPoly else c >>> 1

/-- `repeat k times` of R70. -/
def crcShifts (k : Nat) (c : Half) : Half :=
  match k with
  | 0 => c
  | k + 1 => crcShifts k (crcShift c)

/-- `crc16_step(c, b)` (40_crc16.md R70). -/
def crcStep (c : Half) (b : Byte) : Half := crcShifts 8 (c ^^^ zext16 b)

/-- The fold of `crc16_step` over `seq` started from `c` (40_crc16.md R71, "Incremental use"). -/
def crcFrom (c : Half) (seq : List Byte) : Half :=
  match seq with
  | [] => c
  | b :: rest => crcFrom (crcStep c b) rest

/-- `crc16(seq)` (40_crc16.md R71). -/
def crc16 (seq : List Byte) : Half := crcFrom crcInit seq

/-- `CRC16 n, data` (40_crc16.md R72). -/
def execCrc16 (data : List Byte) (s : State) : Host.Outcome State Fault Refusal :=
  .next (s.giveResult (.crc16 (crc16 data)))

end Sys2Proof.Machine
end

