-- ==== Sys2Proof/Machine/Flags.lean ====
section
/-! DEFINITION. The block has no flag, condition code or predicate (spec/10_state.md R16). What stands in their place are
the tests its operations make, written here once: `SEND`'s two checks (spec/41_frame_serializer.md R80) and the tests of
the receiver (spec/60_exceptions.md R132). -/

namespace Sys2Proof.Machine

/-- The 2-bit code of a `SEND` result (60_exceptions.md R130). -/
def SendResult.code : SendResult → BitVec 2
  | .ok => 0
  | .illegalLength => 1
  | .nullPayload => 2

/-- `SEND`'s checks in the order of 41_frame_serializer.md R80: `IllegalLength` wins when both hold (92 D7;
log entry 13). -/
def sendCheck (cfg : Config) (n : Half) (payload : Option (List Byte)) : SendResult :=
  if n.toNat > cfg.maxPayload then .illegalLength
  else if n.toNat > 0 ∧ payload = none then .nullPayload
  else .ok

/-- The test of 42_frame_receiver.md R100: the declared length exceeds the configured maximum. -/
def State.lengthOversize (s : State) : Bool := decide (s.dlen.toNat > s.cfg.maxPayload)

/-- V1 (42_frame_receiver.md R103): one of the two CRC bytes, `8 + dlen` and `9 + dlen`, is no index of `buf`. -/
def State.crcIndexOutside (s : State) : Bool := decide (9 + s.dlen.toNat ≥ s.cfg.cap)

/-- V2 (42_frame_receiver.md R104): the received checksum. -/
def State.receivedCrc (s : State) : Half := s.readBuf16 (8 + s.dlen.toNat)

/-- V2 (42_frame_receiver.md R104): the expected checksum, over `buf[0 .. 7 + dlen]` (92 D4; log entry 14). -/
def State.expectedCrc (s : State) : Half := crc16 (s.bufPrefix (8 + s.dlen.toNat))

/-- V4 (42_frame_receiver.md R106): the target byte equals one of the two address registers as they are now. -/
def State.addressMatches (s : State) : Bool :=
  s.readBuf 4 == s.ownAddr || s.readBuf 4 == s.bcastAddr

end Sys2Proof.Machine
end

