-- ==== Sys2Proof/Machine/Receiver.lean ====
section
/-! DEFINITION. The Frame Receiver (spec/42_frame_receiver.md): the nine transitions, validation, `FEED_BYTE` and
`FEED_BUF`. -/

namespace Sys2Proof.Machine

/-! ### The transitions -/

/-- The shared body of 42_frame_receiver.md R93 to R95: "if the byte does not match the expected constant, reset to the
initial state (drop everything accumulated so far, including this byte). If it matches, append the byte and advance." -/
def State.matchPreamble (s : State) (expected b : Byte) : RxStep :=
  if b = expected then (s.append b).accept else s.drop .preambleMismatch

/-- `RX_P0(b)` (R93). -/
def rxP0 (b : Byte) (s : State) : RxStep := s.matchPreamble s.cfg.preamble0 b

/-- `RX_P1(b)` (R94). -/
def rxP1 (b : Byte) (s : State) : RxStep := s.matchPreamble s.cfg.preamble1 b

/-- `RX_P2(b)` (R95). -/
def rxP2 (b : Byte) (s : State) : RxStep := s.matchPreamble s.cfg.preamble2 b

/-- `RX_SRC(b)` (R96): "always append and advance (no validation yet)". -/
def rxSrc (b : Byte) (s : State) : RxStep := (s.append b).accept

/-- `RX_TGT(b)` (R97). -/
def rxTgt (b : Byte) (s : State) : RxStep := (s.append b).accept

/-- `RX_TYPE(b)` (R98). -/
def rxType (b : Byte) (s : State) : RxStep := (s.append b).accept

/-- `RX_LENH(b)` (R99). -/
def rxLenH (b : Byte) (s : State) : RxStep := (s.append b).accept

/-- `dlen <- {buf[6], buf[7]}` (R100). -/
def State.latchLength (s : State) : State := { s with dlen := s.readBuf16 6 }

/-- What follows the latch in R100: the length is accepted, or the frame dropped. -/
def State.checkLength (s : State) : RxStep :=
  if s.lengthOversize then s.drop .oversizeLength else s.accept

/-- `RX_LENL(b)` (R100). -/
def rxLenL (b : Byte) (s : State) : RxStep := ((s.append b).latchLength).checkLength

/-- V5 (R107): `Deliver(buf[0 .. 9 + dlen])`, then `RxReset()`. -/
def State.deliverFrame (s : State) : State := (s.deliver (s.bufPrefix (10 + s.dlen.toNat))).rxReset

/-- `Validate()` (R102), the checks in the order V1, V3, V4, V5. -/
def State.validate (s : State) : RxStep :=
  if s.crcIndexOutside then s.drop .crcIndexOutOfRange
  else if s.expectedCrc ≠ s.receivedCrc then s.drop .crcMismatch
  else if s.addressMatches = false then s.drop .addressMismatch
  else s.deliverFrame.accept

/-- What follows the append in R101, by `count`, the number of bytes accumulated with this one: validate when the frame is
complete, drop when the count has passed it (R108, 92 D13; log entry 17). The counts are exact (log entry 16). -/
def State.checkComplete (s : State) (count : Nat) : RxStep :=
  if count = 10 + s.dlen.toNat then s.validate
  else if count > 10 + s.dlen.toNat then s.drop .corruptState
  else s.accept

/-- `RX_ACC(b)` (R101). The count is the old `widx` and one, not reduced modulo `CAP`: R101's tests are on "the value after
`Append`, which is the number of bytes accumulated", and R108 and 93 U7 drop from every `widx >= 10 + dlen`, `CAP - 1`
among them. DEDUCED (log entry 25). -/
def rxAcc (b : Byte) (s : State) : RxStep := (s.append b).checkComplete (s.widx + 1)

/-- The transition of an incoming byte, chosen by `widx` alone (R90, 30_encoding.md R61). -/
def rxByte (b : Byte) (s : State) : RxStep :=
  match positionOf s.widx with
  | .awaitPreamble0 => rxP0 b s
  | .awaitPreamble1 => rxP1 b s
  | .awaitPreamble2 => rxP2 b s
  | .sourceAddr => rxSrc b s
  | .targetAddr => rxTgt b s
  | .messageType => rxType b s
  | .lengthHigh => rxLenH b s
  | .lengthLow => rxLenL b s
  | .accumulatePayloadAndCrc => rxAcc b s

/-! ### The commands -/

/-- One byte fed to the receiver: shared by `FEED_BYTE` and `FEED_BUF`. -/
def feedOne (b : Byte) (s : State) : Host.Outcome State Fault Refusal := s.guardBuf (rxByte b s).state

/-- `FEED_BYTE b` (R90). -/
def execFeedByte (b : Byte) (s : State) : Host.Outcome State Fault Refusal := feedOne b s

/-- `FEED_BUF n, data` (R110): each byte in order, complete before the next is looked at (92 D19; log
entry 19). -/
def execFeedBuf (data : List Byte) (s : State) : Host.Outcome State Fault Refusal :=
  match data with
  | [] => .next s
  | b :: rest =>
    match feedOne b s with
    | .next t => execFeedBuf rest t
    | .fault f => .fault f
    | .refused r => .refused r

/-! ### The transitions as rows of the opcode table

Each runs at the position that selects it (the table's "selector"; log entry 4). -/

/-- Row `RX_P0`. -/
def execRxP0 (b : Byte) (s : State) : Host.Outcome State Fault Refusal :=
  s.atPosition .awaitPreamble0 (rxP0 b s).state

/-- Row `RX_P1`. -/
def execRxP1 (b : Byte) (s : State) : Host.Outcome State Fault Refusal :=
  s.atPosition .awaitPreamble1 (rxP1 b s).state

/-- Row `RX_P2`. -/
def execRxP2 (b : Byte) (s : State) : Host.Outcome State Fault Refusal :=
  s.atPosition .awaitPreamble2 (rxP2 b s).state

/-- Row `RX_SRC`. -/
def execRxSrc (b : Byte) (s : State) : Host.Outcome State Fault Refusal :=
  s.atPosition .sourceAddr (rxSrc b s).state

/-- Row `RX_TGT`. -/
def execRxTgt (b : Byte) (s : State) : Host.Outcome State Fault Refusal :=
  s.atPosition .targetAddr (rxTgt b s).state

/-- Row `RX_TYPE`. -/
def execRxType (b : Byte) (s : State) : Host.Outcome State Fault Refusal :=
  s.atPosition .messageType (rxType b s).state

/-- Row `RX_LENH`. -/
def execRxLenH (b : Byte) (s : State) : Host.Outcome State Fault Refusal :=
  s.atPosition .lengthHigh (rxLenH b s).state

/-- Row `RX_LENL`. -/
def execRxLenL (b : Byte) (s : State) : Host.Outcome State Fault Refusal :=
  s.atPosition .lengthLow (rxLenL b s).state

/-- Row `RX_ACC`. -/
def execRxAcc (b : Byte) (s : State) : Host.Outcome State Fault Refusal :=
  s.atPosition .accumulatePayloadAndCrc (rxAcc b s).state

end Sys2Proof.Machine
end

