-- ==== Sys2Proof/Machine/Reserved.lean ====
section
/-! DEFINITION. The two reserved operation codes (spec/30_encoding.md R58): "The model refuses a command word with either
code". -/

namespace Sys2Proof.Machine

/-- A reserved operation code: no meaning, no state (92 D24; log entry 11). -/
def refuseReserved (op : BitVec 3) : Host.Outcome State Fault Refusal := .refused (.reservedOpcode op)

/-- Operation code 0 (30_encoding.md R58). -/
def execReservedOp0 (_s : State) : Host.Outcome State Fault Refusal := refuseReserved 0

/-- Operation code 7 (30_encoding.md R58). -/
def execReservedOp7 (_s : State) : Host.Outcome State Fault Refusal := refuseReserved 7

end Sys2Proof.Machine
end

