-- ==== Sys2Proof/Machine/Serializer.lean ====
section
/-! DEFINITION. The Frame Serializer (spec/41_frame_serializer.md): `SEND`. -/

namespace Sys2Proof.Machine

/-- The header and payload writes of 41_frame_serializer.md R81, indices 0..`7 + n` of `txf`. -/
def State.buildBody (s : State) (dest type : Byte) (n : Half) (payload : List Byte) : State :=
  ((((((((s.txWrite 0 s.cfg.preamble0).txWrite 1 s.cfg.preamble1).txWrite 2 s.cfg.preamble2).txWrite 3
    s.ownAddr).txWrite 4 dest).txWrite 5 type).txWrite 6 (hiByte n)).txWrite 7 (loByte n)).txWriteAll 8 payload

/-- The two CRC writes of R81, over `txf[0 .. 7 + n]`. -/
def State.appendCrc (s : State) (n : Half) : State :=
  (s.txWrite (8 + n.toNat) (hiByte (crc16 (s.txPrefix (8 + n.toNat))))).txWrite (9 + n.toNat)
    (loByte (crc16 (s.txPrefix (8 + n.toNat))))

/-- `Transmit(txf[0 .. 9 + n])` (R81). -/
def State.transmitTxf (s : State) (n : Half) : State := s.transmit (s.txPrefix (10 + n.toNat))

/-- The body of a `SEND` whose checks passed (R81). -/
def State.buildAndTransmit (s : State) (dest type : Byte) (n : Half) (payload : List Byte) : State :=
  ((s.buildBody dest type n payload).appendCrc n).transmitTxf n

/-- `SEND a, b, pv, n, data` (41_frame_serializer.md R80). An error result changes no state and transmits nothing. -/
def execSend (dest type : Byte) (n : Half) (payload : Option (List Byte)) (s : State) :
    Host.Outcome State Fault Refusal :=
  match sendCheck s.cfg n payload with
  | .illegalLength => .next (s.giveResult (.send .illegalLength))
  | .nullPayload => .next (s.giveResult (.send .nullPayload))
  | .ok =>
    if payloadLongEnough n payload then
      .next ((s.buildAndTransmit dest type n (payloadRead n payload)).giveResult (.send .ok))
    else .refused .dataOperandShort

end Sys2Proof.Machine
end

