-- ==== Sys2Proof/Machine/Dispatch.lean ====
section
/-! DEFINITION. One arm per row of spec/opcode_table.json. -/

namespace Sys2Proof.Machine

def exec (i : Instr) (s : State) : Host.Outcome State Fault Refusal :=
  match i with
  -- commands
  | .setOwn a => Sys2Proof.Machine.execSetOwn a s
  | .setBcast a => Sys2Proof.Machine.execSetBcast a s
  | .feedByte b => Sys2Proof.Machine.execFeedByte b s
  | .feedBuf data => Sys2Proof.Machine.execFeedBuf data s
  | .send dest type n payload => Sys2Proof.Machine.execSend dest type n payload s
  | .crc16 data => Sys2Proof.Machine.execCrc16 data s
  -- reserved operation codes
  | .reservedOp0 => Sys2Proof.Machine.execReservedOp0 s
  | .reservedOp7 => Sys2Proof.Machine.execReservedOp7 s
  -- receiver transitions
  | .rxP0 b => Sys2Proof.Machine.execRxP0 b s
  | .rxP1 b => Sys2Proof.Machine.execRxP1 b s
  | .rxP2 b => Sys2Proof.Machine.execRxP2 b s
  | .rxSrc b => Sys2Proof.Machine.execRxSrc b s
  | .rxTgt b => Sys2Proof.Machine.execRxTgt b s
  | .rxType b => Sys2Proof.Machine.execRxType b s
  | .rxLenH b => Sys2Proof.Machine.execRxLenH b s
  | .rxLenL b => Sys2Proof.Machine.execRxLenL b s
  | .rxAcc b => Sys2Proof.Machine.execRxAcc b s

end Sys2Proof.Machine
end

