-- ==== Sys2Proof/Machine/Step.lean ====
section
/-! DEFINITION. One step of the machine: the next input the environment presents, taken whole (spec/20_memory.md R35,
R39). -/

namespace Sys2Proof.Machine

/-- One step. A configuration that is not well formed is refused (00_scope.md R6; log entry 12). With nothing presented "the block is
idle and holds its state" (60_exceptions.md R140). A hardware reset yields the state of R22 (70 R150). An operation is
decoded at the current write index and executed. -/
def step (s : State) : Host.Outcome State Fault Refusal :=
  if s.cfg.wf then
    match s.pending with
    | [] => .next s
    | .hwReset :: rest => .next ({ s with pending := rest } : State).hardwareReset
    | .op e :: rest =>
      match decode s.widx e with
      | .error err => .refused (.badDataOperand err)
      | .ok i => exec i { s with pending := rest }
  else .refused .illFormedConfig

/-- `s` with the table word presented next, before what was already pending (log entry 2). -/
def State.withFetchWord (s : State) (nbits w : Nat) : State :=
  match tableEncoded nbits w with
  | none => s
  | some e => { s with pending := .op e :: s.pending }

end Sys2Proof.Machine
end

