-- ==== Sys2Proof/Machine/Frame.lean ====
section
/-! DEFINITION. The wire frame of spec/30_encoding.md R50 to R53 as a byte sequence: what the statements call a frame. The
machine itself builds its frames byte by byte in `txf` and finds them byte by byte in `buf`. -/

namespace Sys2Proof.Machine

/-- Bytes 0..`7 + L` of a frame (R50): preamble, source, target, type, big-endian length, payload. -/
def frameBody (cfg : Config) (src tgt type : Byte) (payload : List Byte) : List Byte :=
  [cfg.preamble0, cfg.preamble1, cfg.preamble2, src, tgt, type,
    hiByte (BitVec.ofNat 16 payload.length), loByte (BitVec.ofNat 16 payload.length)] ++ payload

/-- A checksum as the two bytes of its field, high byte first (R52). -/
def crcField (c : Half) : List Byte := [hiByte c, loByte c]

/-- A whole frame (R50): the body, then the checksum of exactly the body (R53). -/
def wireFrame (cfg : Config) (src tgt type : Byte) (payload : List Byte) : List Byte :=
  frameBody cfg src tgt type payload ++ crcField (crc16 (frameBody cfg src tgt type payload))

end Sys2Proof.Machine
end

