-- ==== Sys2Proof/Safety.lean ====
section
/-! DEFINITION. What the statements speak in: the invariant of the reachable states (spec/10_state.md R24), what a frame is
(spec/30_encoding.md R50 to R53), which parts of the state an operation leaves alone, and which parts of the state nothing
can observe (spec/10_state.md R19). -/

namespace Sys2Proof.Machine

/-! ### Invariants -/

/-- Both memories are in their canonical form and hold only indices that exist: 0..`CAP - 1` (10_state.md R11) and
0..`9 + MAX_PAYLOAD` (R17). -/
structure State.StorageOk (s : State) : Prop where
  bufCanonical : Memory.wf s.buf
  bufInside : ∀ c ∈ s.buf, c.1 < s.cfg.cap
  txfCanonical : Memory.wf s.txf
  txfInside : ∀ c ∈ s.txf, c.1 < 10 + s.cfg.maxPayload

/-- 10_state.md R24: "either `widx <= 7` and `dlen = 0`, or `8 <= widx <= 9 + dlen` and `dlen <= MAX_PAYLOAD`". -/
def State.PositionOk (s : State) : Prop :=
  (s.widx ≤ 7 ∧ s.dlen = 0) ∨
    (8 ≤ s.widx ∧ s.widx ≤ 9 + s.dlen.toNat ∧ s.dlen.toNat ≤ s.cfg.maxPayload)

/-- 10_state.md R24 on the bytes accumulated: every index below `widx` was written, the preamble bytes that have been
accepted are the preamble's, and a latched length is the one in `buf[6]`, `buf[7]`. -/
structure State.AccumulatedOk (s : State) : Prop where
  written : ∀ i, i < s.widx → (Memory.read? s.buf i).isSome = true
  first : 0 < s.widx → s.readBuf 0 = s.cfg.preamble0
  second : 1 < s.widx → s.readBuf 1 = s.cfg.preamble1
  third : 2 < s.widx → s.readBuf 2 = s.cfg.preamble2
  latched : 8 ≤ s.widx → s.dlen = s.readBuf16 6

/-- The invariant of the states a block with a well-formed configuration can be in (10_state.md R24). -/
structure State.Inv (s : State) : Prop where
  cfgOk : s.cfg.wf = true
  storage : s.StorageOk
  position : s.PositionOk
  accumulated : s.AccumulatedOk

/-- A byte sequence is a frame of this block's protocol (30_encoding.md R50 to R53). -/
def IsFrame (cfg : Config) (f : List Byte) : Prop :=
  ∃ (src tgt type : Byte) (payload : List Byte),
    payload.length ≤ cfg.maxPayload ∧ f = wireFrame cfg src tgt type payload

/-- Every frame the block has delivered or transmitted is a frame of its protocol. -/
def State.EmittedOk (s : State) : Prop :=
  (∀ f ∈ s.rxOut, IsFrame s.cfg f) ∧ (∀ f ∈ s.txOut, IsFrame s.cfg f)

/-! ### Feeding bytes one command at a time -/

/-- The commands `FEED_BYTE b0`, `FEED_BYTE b1`, ... one after another. -/
def feedEach (bytes : List Byte) (s : State) : Host.Outcome State Fault Refusal :=
  match bytes with
  | [] => .next s
  | b :: rest =>
    match exec (.feedByte b) s with
    | .next t => feedEach rest t
    | .fault f => .fault f
    | .refused r => .refused r

/-! ### Frames: what is left alone -/

/-- Everything but the receiver's parse state (`buf`, `widx`, `dlen`) and the receive trace is the same. -/
structure SameOutsideReceiver (s t : State) : Prop where
  cfg : t.cfg = s.cfg
  ownAddr : t.ownAddr = s.ownAddr
  bcastAddr : t.bcastAddr = s.bcastAddr
  txf : t.txf = s.txf
  txOut : t.txOut = s.txOut
  resOut : t.resOut = s.resOut
  pending : t.pending = s.pending
  epoch : t.epoch = s.epoch

/-- Every byte of the working buffer reads the same but the one at index `i`. -/
def SameBufBut (i : Nat) (s t : State) : Prop := ∀ j, j ≠ i → t.readBuf j = s.readBuf j

/-- The byte `b` was appended and nothing else happened: stored at the old `widx`, which moved on by one
(42_frame_receiver.md R91). -/
structure Appended (b : Byte) (s t : State) : Prop where
  outside : SameOutsideReceiver s t
  rxOut : t.rxOut = s.rxOut
  stored : t.readBuf s.widx = b
  others : SameBufBut s.widx s t
  advanced : t.widx = s.widx + 1

/-- A silent drop (60_exceptions.md R131, R134): the receiver is back in its initial state, nothing was delivered, and
nothing outside the receiver changed. -/
structure Dropped (s t : State) : Prop where
  outside : SameOutsideReceiver s t
  rxOut : t.rxOut = s.rxOut
  widx : t.widx = 0
  dlen : t.dlen = 0

/-! ### What nothing can observe -/

/-- Two states that differ at most in what 10_state.md R19 says is no hidden state: the bytes of `buf` at or above
`widx`, the contents of `txf`, and the free values (`epoch`). -/
structure SameButUnobservable (s t : State) : Prop where
  cfg : t.cfg = s.cfg
  widx : t.widx = s.widx
  dlen : t.dlen = s.dlen
  ownAddr : t.ownAddr = s.ownAddr
  bcastAddr : t.bcastAddr = s.bcastAddr
  rxOut : t.rxOut = s.rxOut
  txOut : t.txOut = s.txOut
  resOut : t.resOut = s.resOut
  pending : t.pending = s.pending
  accumulated : ∀ i, i < s.widx → t.readBuf i = s.readBuf i

end Sys2Proof.Machine
end

