-- ==== Sys2Proof/Certificates/Slice0/Obligations.lean ====
section
/-! DEFINITION. The statements for the provers. Each docstring names the rule of spec/ it formalises; where a clause rests
on a choice of the spec's own or of the model's, it says so. -/

open Sys2Proof Sys2Proof.Machine

/-! ### Reset and steps -/

/-- 10_state.md R22. That `dlen` is 0 is the spec's own choice (92 D9). `buf` and `txf` are unspecified: every index
reads as a free value, whatever the epoch (log entry 5). The parameters of `State.reset` are the model's choice (log
entry 1). -/
def Obligations.ResetLeavesTheBlockIdleAndEmpty : Prop :=
  ∀ cfg : Config,
    (State.resetWith cfg).cfg = cfg ∧
    (State.resetWith cfg).widx = 0 ∧
    positionOf (State.resetWith cfg).widx = .awaitPreamble0 ∧
    (State.resetWith cfg).dlen = 0 ∧
    (State.resetWith cfg).ownAddr = 0x00 ∧
    (State.resetWith cfg).bcastAddr = 0x00 ∧
    (State.resetWith cfg).rxOut = [] ∧
    (State.resetWith cfg).txOut = [] ∧
    (∀ i, (State.resetWith cfg).readBuf i = freeBufByte (State.resetWith cfg).epoch i) ∧
    (∀ i, (State.resetWith cfg).readTx i = freeTxByte (State.resetWith cfg).epoch i) ∧
    State.reset = State.resetWith configTcA

/-- 70_reset_and_hazards.md R150: hardware reset as an input between two commands yields the state of R22. The
parameters stay; `resOut` is emptied with the traces (log entry 7); the free values are fresh (log entry 5). -/
def Obligations.HardwareResetInputResetsTheBlock : Prop :=
  ∀ (s : State) (rest : List Input), s.cfg.wf = true → s.pending = .hwReset :: rest →
    ∃ t, step s = .next t ∧ t.cfg = s.cfg ∧ t.widx = 0 ∧ t.dlen = 0 ∧ t.ownAddr = 0x00 ∧ t.bcastAddr = 0x00 ∧
      t.rxOut = [] ∧ t.txOut = [] ∧ t.resOut = [] ∧ t.pending = rest ∧ t.epoch ≠ s.epoch ∧
      (∀ i, t.readBuf i = freeBufByte t.epoch i) ∧ (∀ i, t.readTx i = freeTxByte t.epoch i)

/-- A step runs the decoded operation: what is presented first is decoded at the current write index
(30_encoding.md R57, R61) and executed whole (20_memory.md R35); the step itself only takes it off the inputs. -/
def Obligations.StepRunsTheDecodedOperation : Prop :=
  ∀ (s : State) (e : Encoded) (rest : List Input) (i : Instr),
    s.cfg.wf = true → s.pending = .op e :: rest → decode s.widx e = .ok i →
    step s = exec i { s with pending := rest }

/-- 60_exceptions.md R140: "between commands the block is idle and holds its state". -/
def Obligations.StepHoldsTheStateWhenNothingIsPresented : Prop :=
  ∀ s : State, s.cfg.wf = true → s.pending = [] → step s = .next s

/-- 00_scope.md R6: exactly the configurations that are not well formed are refused. -/
def Obligations.ExactlyIllFormedConfigurationsAreRefused : Prop :=
  ∀ s : State, step s = .refused .illFormedConfig ↔
    ¬ (s.cfg.maxPayload ≤ 65535 ∧ s.cfg.cap ≥ 11 + s.cfg.maxPayload)

/-- From a state of the invariant a step never faults, and it is refused only for a reserved operation code
(30_encoding.md R58) or a data operand that R59 says does not exist (log entry 9). -/
def Obligations.ReachableStepsStopOnlyOnReservedCodesAndImpossibleOperands : Prop :=
  ∀ s : State, s.Inv →
    (∀ f, step s ≠ .fault f) ∧
    (∀ r, step s = .refused r →
      r = .reservedOpcode 0 ∨ r = .reservedOpcode 7 ∨ r = .dataOperandShort ∨ ∃ e, r = .badDataOperand e)

/-- When feeding stops: a write index of `CAP` or more is not representable (10_state.md R12, log entry 10), and a
receiver transition is presented where `widx` does not select it (30_encoding.md R61, log entry 4). -/
def Obligations.FeedingStopsOutsideTheBufferAndOutOfPosition : Prop :=
  ∀ (s : State) (b : Byte) (data : List Byte),
    (s.cfg.cap ≤ s.widx →
      exec (.feedByte b) s = .fault (.bufIndexOutOfRange s.widx) ∧
      exec (.feedBuf (b :: data)) s = .fault (.bufIndexOutOfRange s.widx) ∧
      exec (decodePosition (positionOf s.widx) b) s = .fault (.bufIndexOutOfRange s.widx)) ∧
    (∀ p, p ≠ positionOf s.widx → exec (decodePosition p b) s = .refused (.positionMismatch s.widx))

/-! ### Encodings -/

/-- Words decode to the operations they stand for (a sanity statement). Six of the command words are written out in
95_test_vectors.md sections 2 and 3; the word of `CRC16` with `n = 3` and the two reserved words are put together from
the tables of 30_encoding.md R56 and R57, and the two received bytes are read by R61. The encodings are the spec's own
choice (92 D5). -/
def Obligations.WordsOfTheSpecDecodeToTheirCommands : Prop :=
  decode 0 (.cmd 0x2EE000000#36 []) = .ok (.setOwn 0xEE) ∧
  decode 0 (.cmd 0x4FF000000#36 []) = .ok (.setBcast 0xFF) ∧
  decode 0 (.cmd 0x637000000#36 []) = .ok (.feedByte 0x37) ∧
  decode 0 (.cmd 0x800000004#36 [0x00, 0x00, 0x0D, 0x02]) = .ok (.feedBuf [0x00, 0x00, 0x0D, 0x02]) ∧
  decode 0 (.cmd 0xB02100002#36 [0x01, 0x02, 0x03]) = .ok (.send 0x02 0x10 2 (some [0x01, 0x02, 0x03])) ∧
  decode 0 (.cmd 0xA02100011#36 []) = .ok (.send 0x02 0x10 17 none) ∧
  decode 0 (.cmd 0xC00000003#36 [0x31, 0x32, 0x33]) = .ok (.crc16 [0x31, 0x32, 0x33]) ∧
  decode 0 (.cmd 0x000000000#36 []) = .ok .reservedOp0 ∧
  decode 0 (.cmd 0xE00000000#36 []) = .ok .reservedOp7 ∧
  decode 7 (.rxByte 0x10) = .ok (.rxLenL 0x10) ∧
  decode 51 (.rxByte 0x86) = .ok (.rxAcc 0x86)

/-- Decoding the encoding of a well-formed operation gives it back, with every operand (30_encoding.md R56, R57, R61);
a receiver transition at a write index that selects it. The encodings are the spec's own (92 D5). -/
def Obligations.DecodeOfEncodeIsTheOperation : Prop :=
  ∀ (i : Instr) (widx : Nat), i.wf = true → (∀ p, i.selector = some p → positionOf widx = p) →
    decode widx (encode i) = .ok i

/-- Every command word is read by its operation code, with exactly the fields R57 names; the others have no effect
whatever their value (30_encoding.md R56, R57, R59; the spec's own choice, 92 D5, D30). -/
def Obligations.EveryCommandWordIsReadByItsFields : Prop :=
  (∀ w : CmdWord, w = cmdWord (opField w) (pvField w) (aField w) (bField w) (nField w)) ∧
  ∀ (widx : Nat) (pv : BitVec 1) (a b : Byte) (n : Half) (data : List Byte),
    decode widx (.cmd (cmdWord 0 pv a b n) []) = .ok .reservedOp0 ∧
    decode widx (.cmd (cmdWord 1 pv a b n) []) = .ok (.setOwn a) ∧
    decode widx (.cmd (cmdWord 2 pv a b n) []) = .ok (.setBcast a) ∧
    decode widx (.cmd (cmdWord 3 pv a b n) []) = .ok (.feedByte a) ∧
    (data.length = n.toNat → decode widx (.cmd (cmdWord 4 pv a b n) data) = .ok (.feedBuf data)) ∧
    decode widx (.cmd (cmdWord 5 0 a b n) []) = .ok (.send a b n none) ∧
    decode widx (.cmd (cmdWord 5 1 a b n) data) = .ok (.send a b n (some data)) ∧
    (data.length = n.toNat → decode widx (.cmd (cmdWord 6 pv a b n) data) = .ok (.crc16 data)) ∧
    decode widx (.cmd (cmdWord 7 pv a b n) []) = .ok .reservedOp7

/-- What the decoder accepts is well formed and, for a receiver transition, selected by the write index. It accepts a
command exactly when its data operand is one that 30_encoding.md R59 gives it: exactly `n` bytes for `FEED_BUF` and
`CRC16`, any for `SEND` with `pv = 1`, none for every other command; and every received byte (R61). What it rejects a step
refuses by name (that such a command is refused is the model's reading of R59, log entry 9). -/
def Obligations.DecoderAcceptsOnlyWhatTheEncodingsAdmit : Prop :=
  (∀ (widx : Nat) (e : Encoded) (i : Instr), decode widx e = .ok i →
    i.wf = true ∧ ∀ p, i.selector = some p → positionOf widx = p) ∧
  (∀ (widx : Nat) (w : CmdWord) (data : List Byte), (∃ i, decode widx (.cmd w data) = .ok i) ↔
    (((opField w = 4 ∨ opField w = 6) ∧ data.length = (nField w).toNat) ∨
      (opField w = 5 ∧ pvField w = 1) ∨
      ((opField w ≠ 4 ∧ opField w ≠ 6 ∧ ¬ (opField w = 5 ∧ pvField w = 1)) ∧ data = []))) ∧
  (∀ (widx : Nat) (b : Byte), ∃ i, decode widx (.rxByte b) = .ok i) ∧
  (∀ (s : State) (e : Encoded) (rest : List Input) (err : DecodeError),
    s.cfg.wf = true → s.pending = .op e :: rest → decode s.widx e = .error err →
    step s = .refused (.badDataOperand err))

/-- 30_encoding.md R58: the reserved operation codes are refused, whatever the other fields (the spec's own choice,
92 D24). -/
def Obligations.ReservedOperationCodesAreRefused : Prop :=
  (∀ s, exec .reservedOp0 s = .refused (.reservedOpcode 0)) ∧
  (∀ s, exec .reservedOp7 s = .refused (.reservedOpcode 7)) ∧
  (∀ (s : State) (w : CmdWord) (rest : List Input), s.cfg.wf = true → s.pending = .op (.cmd w []) :: rest →
    (opField w = 0 → step s = .refused (.reservedOpcode 0)) ∧
    (opField w = 7 → step s = .refused (.reservedOpcode 7)))

/-- A byte presented alone in the table's RXPOS format has the effect of `FEED_BYTE` (42_frame_receiver.md R90; that it
can be presented alone is the model's choice, log entry 3). -/
def Obligations.BareByteStepsAsFeedByte : Prop :=
  ∀ (s : State) (b : Byte) (rest : List Input),
    step { s with pending := .op (.rxByte b) :: rest } = step { s with pending := .op (encode (.feedByte b)) :: rest }

/-! ### Byte order and the wire frame -/

/-- 20_memory.md R30: the combine is `h * 256 + l`, and the two bytes of a half-word are its high and low byte. -/
def Obligations.HalfWordsAreBigEndian : Prop :=
  ∀ (h l : Byte) (v : Half),
    (be16 h l).toNat = h.toNat * 256 + l.toNat ∧ be16 (hiByte v) (loByte v) = v ∧
    hiByte (be16 h l) = h ∧ loByte (be16 h l) = l

/-- 30_encoding.md R50 to R53: the fields of a frame at their offsets, its size, its length field, and the checksum of
exactly the `8 + L` bytes before it (the coverage is the spec's own decision, 92 D4). -/
def Obligations.FrameHasTheLayoutOfTheWireFormat : Prop :=
  ∀ (cfg : Config) (src tgt type : Byte) (payload : List Byte), payload.length ≤ 65535 →
    (wireFrame cfg src tgt type payload).length = 10 + payload.length ∧
    (wireFrame cfg src tgt type payload).take 6 =
      [cfg.preamble0, cfg.preamble1, cfg.preamble2, src, tgt, type] ∧
    (∃ h l, ((wireFrame cfg src tgt type payload).drop 6).take 2 = [h, l] ∧
      h.toNat * 256 + l.toNat = payload.length) ∧
    ((wireFrame cfg src tgt type payload).drop 8).take payload.length = payload ∧
    (∃ h l, (wireFrame cfg src tgt type payload).drop (8 + payload.length) = [h, l] ∧
      be16 h l = crc16 ((wireFrame cfg src tgt type payload).take (8 + payload.length)))

/-! ### The CRC-16 module -/

/-- 40_crc16.md R70: the byte is XORed into the low byte, then eight iterations, each of which shifts right by one and, if
bit 0 was set, flips bits 15, 13 and 0 (0xA001). -/
def Obligations.CrcByteStepShiftsEightTimes : Prop :=
  (∀ (c : Half) (i : Nat), i < 16 →
    (crcShift c).getLsbD i =
      (c.getLsbD (i + 1) ^^ (c.getLsbD 0 && (i == 15 || i == 13 || i == 0)))) ∧
  (∀ (c : Half) (b : Byte), crcStep c b = crcShift^[8] (be16 (hiByte c) (loByte c ^^^ b)))

/-- 40_crc16.md R71: the initial value, the bytes in order, nothing done after the last, and the incremental use. -/
def Obligations.CrcFoldsTheByteStepFromAllOnes : Prop :=
  crc16 [] = 0xFFFF#16 ∧
  (∀ (x : List Byte) (b : Byte), crc16 (x ++ [b]) = crcStep (crc16 x) b) ∧
  (∀ x y : List Byte, crc16 (x ++ y) = crcFrom (crc16 x) y) ∧
  crc16 [0x31, 0x32, 0x33, 0x34, 0x35, 0x36, 0x37, 0x38, 0x39] = 0x4B37#16

/-- 40_crc16.md R70, corner cases (general knowledge, 93 G2): the byte step is linear over XOR and, for a fixed byte, no
two running values meet. -/
def Obligations.CrcByteStepIsLinearAndInjective : Prop :=
  (∀ (c1 c2 : Half) (b1 b2 : Byte), crcStep (c1 ^^^ c2) (b1 ^^^ b2) = crcStep c1 b1 ^^^ crcStep c2 b2) ∧
  (∀ (c1 c2 : Half) (b : Byte), crcStep c1 b = crcStep c2 b → c1 = c2)

/-- 40_crc16.md R75 (general knowledge, 93 G3): the zero residue appears for every message when the checksum is appended
low byte first, and not always in the frame's order, high byte first. -/
def Obligations.ZeroResidueNeedsLowByteFirst : Prop :=
  (∀ x : List Byte, crc16 (x ++ [loByte (crc16 x), hiByte (crc16 x)]) = 0#16) ∧
  (∃ x : List Byte, crc16 (x ++ crcField (crc16 x)) ≠ 0#16)

/-- 40_crc16.md R72: the command returns the checksum of its data, changes no state and emits no event (that it is a
command is the spec's own choice, 92 D18; results are kept in `resOut`, log entry 7). -/
def Obligations.Crc16CommandReturnsTheChecksum : Prop :=
  ∀ (data : List Byte) (s : State),
    exec (.crc16 data) s = .next { s with resOut := s.resOut ++ [.crc16 (crc16 data)] }

/-! ### Addressing configuration -/

/-- 43_addressing_config.md R120. -/
def Obligations.SetOwnWritesOwnAddrAlone : Prop :=
  ∀ (a : Byte) (s : State), exec (.setOwn a) s = .next { s with ownAddr := a }

/-- 43_addressing_config.md R121. -/
def Obligations.SetBcastWritesBcastAddrAlone : Prop :=
  ∀ (a : Byte) (s : State), exec (.setBcast a) s = .next { s with bcastAddr := a }

/-- 20_memory.md R42: an address register written between two bytes of a frame has the same effect as one written after
the second of them, unless that byte completes the frame: the target byte is not compared before. -/
def Obligations.AddressesAreSampledOnlyAtTheLastByte : Prop :=
  ∀ (a b : Byte) (s : State), s.widx < s.cfg.cap →
    (s.widx < 8 ∨ s.widx + 1 ≠ 10 + s.dlen.toNat) →
    ∃ t, exec (.feedByte b) s = .next t ∧
      exec (.feedByte b) { s with ownAddr := a } = .next { t with ownAddr := a } ∧
      exec (.feedByte b) { s with bcastAddr := a } = .next { t with bcastAddr := a }

/-- Whole-machine rule (10_state.md R10, R14, R15, R16, 43_addressing_config.md R122): each part of the state is written
by the operations the spec names and by no other; the build-time parameters, the inputs and the epoch by none. -/
def Obligations.EachPartOfTheStateHasItsOwnWriters : Prop :=
  ∀ (i : Instr) (s t : State), exec i s = .next t →
    t.cfg = s.cfg ∧ t.pending = s.pending ∧ t.epoch = s.epoch ∧
    (t.ownAddr ≠ s.ownAddr → ∃ a, i = .setOwn a) ∧
    (t.bcastAddr ≠ s.bcastAddr → ∃ a, i = .setBcast a) ∧
    (t.txOut ≠ s.txOut ∨ t.txf ≠ s.txf → ∃ dest type n p, i = .send dest type n p) ∧
    (t.resOut ≠ s.resOut → (∃ dest type n p, i = .send dest type n p) ∨ ∃ data, i = .crc16 data) ∧
    (t.rxOut ≠ s.rxOut → (∃ b, i = .feedByte b) ∨ (∃ data, i = .feedBuf data) ∨ ∃ b, i = .rxAcc b) ∧
    (t.buf ≠ s.buf ∨ t.widx ≠ s.widx ∨ t.dlen ≠ s.dlen →
      (∃ b, i = .feedByte b) ∨ (∃ data, i = .feedBuf data) ∨ i.selector ≠ none)

/-! ### The Frame Serializer -/

/-- 41_frame_serializer.md R80, 60_exceptions.md R130: the two error results; a failed `SEND` changes no state and emits
no event but its result. That `IllegalLength` wins when both conditions hold, and the numeric codes, are the spec's own
choices (92 D7, D6). -/
def Obligations.SendReportsIllegalLengthThenNullPayload : Prop :=
  (∀ (dest type : Byte) (n : Half) (p : Option (List Byte)) (s : State),
    (s.cfg.maxPayload < n.toNat →
      exec (.send dest type n p) s = .next { s with resOut := s.resOut ++ [.send .illegalLength] }) ∧
    (n.toNat ≤ s.cfg.maxPayload → 0 < n.toNat → p = none →
      exec (.send dest type n p) s = .next { s with resOut := s.resOut ++ [.send .nullPayload] })) ∧
  SendResult.ok.code = 0 ∧ SendResult.illegalLength.code = 1 ∧ SendResult.nullPayload.code = 2

/-- A `SEND` whose checks pass and whose payload operand is shorter than `n` is refused: 30_encoding.md R59 says there is
no such operand (92 D26, log entry 9). -/
def Obligations.SendWithTooShortAnOperandIsRefused : Prop :=
  ∀ (dest type : Byte) (n : Half) (data : List Byte) (s : State),
    n.toNat ≤ s.cfg.maxPayload → data.length < n.toNat →
    exec (.send dest type n (some data)) s = .refused .dataOperandShort

/-- 41_frame_serializer.md R81: a `SEND` whose checks pass transmits exactly one frame, of exactly `10 + n` bytes, with
this node's own address as source and the first `n` payload bytes, and returns Ok. Everything else is unchanged but the
scratch bytes 0..`9 + n` of `txf` (10_state.md R17). -/
def Obligations.SendTransmitsTheFrameOnce : Prop :=
  ∀ (dest type : Byte) (n : Half) (p : Option (List Byte)) (s : State),
    n.toNat ≤ s.cfg.maxPayload → (0 < n.toNat → p ≠ none) → n.toNat ≤ (p.getD []).length →
    ∃ t, exec (.send dest type n p) s = .next t ∧
      t.txOut = s.txOut ++ [wireFrame s.cfg s.ownAddr dest type ((p.getD []).take n.toNat)] ∧
      (wireFrame s.cfg s.ownAddr dest type ((p.getD []).take n.toNat)).length = 10 + n.toNat ∧
      t.resOut = s.resOut ++ [.send .ok] ∧
      t = { s with txf := t.txf, txOut := t.txOut, resOut := t.resOut } ∧
      (∀ i, 10 + n.toNat ≤ i → t.readTx i = s.readTx i)

/-- 10_state.md R17, 20_memory.md R40: a `SEND` and a reception share nothing but `own_addr` and the parameters, so a
`SEND` before a buffer of bytes and one after it give the same state (separate storage is the spec's own choice,
92 D15). -/
def Obligations.SendAndFeedCommute : Prop :=
  ∀ (dest type : Byte) (n : Half) (p : Option (List Byte)) (data : List Byte) (s t u : State),
    exec (.send dest type n p) s = .next t → exec (.feedBuf data) t = .next u →
    ∃ v, exec (.feedBuf data) s = .next v ∧ exec (.send dest type n p) v = .next u

/-! ### The Frame Receiver, position by position -/

/-- 42_frame_receiver.md R93, R94, R95. A matching byte is appended; any other is dropped with everything accumulated, and
no byte of the buffer changes (clearing `dlen`: 92 D10, log entry 15). -/
def Obligations.PreamblePositionsMatchOrDrop : Prop :=
  ∀ (b : Byte) (s : State), s.cfg.wf = true →
    (s.widx = 0 → ∃ t, exec (.rxP0 b) s = .next t ∧
      (b = s.cfg.preamble0 → Appended b s t ∧ t.dlen = s.dlen) ∧
      (b ≠ s.cfg.preamble0 → Dropped s t ∧ ∀ i, t.readBuf i = s.readBuf i)) ∧
    (s.widx = 1 → ∃ t, exec (.rxP1 b) s = .next t ∧
      (b = s.cfg.preamble1 → Appended b s t ∧ t.dlen = s.dlen) ∧
      (b ≠ s.cfg.preamble1 → Dropped s t ∧ ∀ i, t.readBuf i = s.readBuf i)) ∧
    (s.widx = 2 → ∃ t, exec (.rxP2 b) s = .next t ∧
      (b = s.cfg.preamble2 → Appended b s t ∧ t.dlen = s.dlen) ∧
      (b ≠ s.cfg.preamble2 → Dropped s t ∧ ∀ i, t.readBuf i = s.readBuf i))

/-- 42_frame_receiver.md R96, R97, R98, R99: always append and advance; `dlen` is not written. -/
def Obligations.UncheckedHeaderPositionsAppend : Prop :=
  ∀ (b : Byte) (s : State), s.cfg.wf = true →
    (s.widx = 3 → ∃ t, exec (.rxSrc b) s = .next t ∧ Appended b s t ∧ t.dlen = s.dlen) ∧
    (s.widx = 4 → ∃ t, exec (.rxTgt b) s = .next t ∧ Appended b s t ∧ t.dlen = s.dlen) ∧
    (s.widx = 5 → ∃ t, exec (.rxType b) s = .next t ∧ Appended b s t ∧ t.dlen = s.dlen) ∧
    (s.widx = 6 → ∃ t, exec (.rxLenH b) s = .next t ∧ Appended b s t ∧ t.dlen = s.dlen)

/-- 42_frame_receiver.md R100: the byte is stored; the big-endian length is latched, or the frame dropped when it exceeds
`MAX_PAYLOAD` (clearing `dlen`: 92 D10, log entry 15). -/
def Obligations.LengthLowLatchesOrDropsOversize : Prop :=
  ∀ (b : Byte) (s : State), s.cfg.wf = true → s.widx = 7 →
    ∃ t, exec (.rxLenL b) s = .next t ∧ t.readBuf 7 = b ∧ SameBufBut 7 s t ∧
      ((be16 (s.readBuf 6) b).toNat ≤ s.cfg.maxPayload →
        Appended b s t ∧ t.dlen = be16 (s.readBuf 6) b) ∧
      (s.cfg.maxPayload < (be16 (s.readBuf 6) b).toNat → Dropped s t)

/-- 42_frame_receiver.md R101 where the byte does not complete the frame: it is appended and nothing more happens. At the
last index the write index wraps to 0 (R91, 92 D12); that such a frame, longer than `buf`, is neither validated nor dropped
there is the model's reading (log entry 25). No reachable state is at the last index (R109). -/
def Obligations.AccumulationAppendsUntilTheFrameIsComplete : Prop :=
  ∀ (b : Byte) (s : State), 8 ≤ s.widx → s.widx + 1 < 10 + s.dlen.toNat →
    (s.widx + 1 < s.cfg.cap →
      ∃ t, exec (.rxAcc b) s = .next t ∧ Appended b s t ∧ t.dlen = s.dlen) ∧
    (s.widx + 1 = s.cfg.cap →
      ∃ t, exec (.rxAcc b) s = .next t ∧ SameOutsideReceiver s t ∧ t.rxOut = s.rxOut ∧ t.readBuf s.widx = b ∧
        SameBufBut s.widx s t ∧ t.widx = 0 ∧ t.dlen = s.dlen)

/-- 42_frame_receiver.md R101, R102, R104, R105, R106, R107 at the byte that completes the frame: checksum over the
`8 + dlen` bytes before the field against the big-endian field, then the target byte against the two registers as they
are now; delivery of the whole frame or a silent drop; the receiver reset in every case (clearing `dlen`: 92 D10, log entry
15; the checksum's coverage: 92 D4, log entry 14). That this holds at the last index of `buf` too, which no reachable state
is at, is the model's reading (log entry 25). -/
def Obligations.LastByteValidatesAndDeliversOrDrops : Prop :=
  ∀ (b : Byte) (s : State), 8 ≤ s.widx → s.widx = 9 + s.dlen.toNat → s.widx < s.cfg.cap →
    ∃ t, exec (.rxAcc b) s = .next t ∧ SameOutsideReceiver s t ∧ t.widx = 0 ∧ t.dlen = 0 ∧
      t.readBuf s.widx = b ∧ SameBufBut s.widx s t ∧
      t.rxOut =
        if crc16 (s.bufPrefix (8 + s.dlen.toNat)) = be16 (s.readBuf (8 + s.dlen.toNat)) b ∧
            (s.readBuf 4 = s.ownAddr ∨ s.readBuf 4 = s.bcastAddr)
        then s.rxOut ++ [s.bufPrefix (9 + s.dlen.toNat) ++ [b]]
        else s.rxOut

/-- 42_frame_receiver.md R101, R108, and 93 U7: from every `widx` of 8 to `CAP - 1` that is `10 + dlen` or more, a state
that is corrupted, the byte is stored and the receiver reset (reading the source's sentence as this arm is the spec's own
choice, 92 D13, log entry 17; at `CAP - 1` see log entry 25; clearing `dlen`: 92 D10, log entry 15). -/
def Obligations.CountPastTheFrameSizeIsDropped : Prop :=
  ∀ (b : Byte) (s : State), 8 ≤ s.widx → s.widx < s.cfg.cap → 10 + s.dlen.toNat ≤ s.widx →
    ∃ t, exec (.rxAcc b) s = .next t ∧ Dropped s t ∧ t.readBuf s.widx = b ∧ SameBufBut s.widx s t ∧
      (rxByte b s).cause = some .corruptState

/-- 42_frame_receiver.md R102, R103: the order of the checks. The capacity check comes first, then the CRC, then the
address. That both CRC bytes must be inside `buf` is the spec's own reading (92 D13, log entry 17); so is that a drop
clears `dlen` and leaves `buf` alone (92 D10, log entry 15). -/
def Obligations.ValidationChecksCapacityThenCrcThenAddress : Prop :=
  ∀ s : State,
    (s.validate.cause = some .crcIndexOutOfRange ↔ s.cfg.cap ≤ 9 + s.dlen.toNat) ∧
    (s.validate.cause = some .crcMismatch ↔
      9 + s.dlen.toNat < s.cfg.cap ∧ crc16 (s.bufPrefix (8 + s.dlen.toNat)) ≠ s.readBuf16 (8 + s.dlen.toNat)) ∧
    (s.validate.cause = some .addressMismatch ↔
      9 + s.dlen.toNat < s.cfg.cap ∧ crc16 (s.bufPrefix (8 + s.dlen.toNat)) = s.readBuf16 (8 + s.dlen.toNat) ∧
        s.readBuf 4 ≠ s.ownAddr ∧ s.readBuf 4 ≠ s.bcastAddr) ∧
    (s.validate.cause ≠ none → s.validate.state = { s with widx := 0, dlen := 0 })

/-- 42_frame_receiver.md R90: `FEED_BYTE` is the transition selected by `widx` alone, and always completes; it writes
`buf[widx]`, `widx` and `dlen`, and delivers at most one frame. -/
def Obligations.FeedByteRunsTheSelectedTransition : Prop :=
  ∀ (b : Byte) (s : State), s.widx < s.cfg.cap →
    ∃ t, exec (.feedByte b) s = .next t ∧ exec (decodePosition (positionOf s.widx) b) s = .next t ∧
      SameOutsideReceiver s t ∧ SameBufBut s.widx s t ∧ (t.rxOut = s.rxOut ∨ ∃ f, t.rxOut = s.rxOut ++ [f])

/-- 42_frame_receiver.md R110: `FEED_BUF` is `FEED_BYTE` of each byte in order; it may be split at any point; with no byte
it does nothing (the spec's reading, 92 D19). -/
def Obligations.FeedBufFeedsEachByteInOrder : Prop :=
  (∀ s, exec (.feedBuf []) s = .next s) ∧
  (∀ (data : List Byte) (s : State), s.widx < s.cfg.cap →
    ∃ t, exec (.feedBuf data) s = .next t ∧ feedEach data s = .next t) ∧
  (∀ (x y : List Byte) (s : State), s.widx < s.cfg.cap →
    ∃ t, exec (.feedBuf x) s = .next t ∧ exec (.feedBuf (x ++ y)) s = exec (.feedBuf y) t)

/-- 42_frame_receiver.md R90, R112, property 5 of 95_test_vectors.md section 4: feeding changes nothing outside the
receiver, and the receive trace only grows at its end. -/
def Obligations.FeedingChangesTheReceiverAlone : Prop :=
  ∀ (data : List Byte) (s t : State), exec (.feedBuf data) s = .next t →
    SameOutsideReceiver s t ∧ ∃ new, t.rxOut = s.rxOut ++ new

/-! ### Drops -/

/-- 60_exceptions.md R131, R134: a drop resets the receiver and changes nothing else; no event, no result (clearing
`dlen`: 92 D10, log entry 15). -/
def Obligations.DropsAreSilent : Prop :=
  ∀ (b : Byte) (s : State) (c : DropCause), (rxByte b s).cause = some c →
    Dropped s (rxByte b s).state ∧ SameBufBut s.widx s (rxByte b s).state ∧
      (s.widx < s.cfg.cap → exec (.feedByte b) s = .next (rxByte b s).state)

/-- 60_exceptions.md R132, R133: in a reachable state each cause arises exactly under its condition, and the two
defensive causes never. -/
def Obligations.DropCausesAriseExactlyUnderTheirConditions : Prop :=
  ∀ (b : Byte) (s : State), s.Inv →
    ((rxByte b s).cause = some .preambleMismatch ↔
      (s.widx = 0 ∧ b ≠ s.cfg.preamble0) ∨ (s.widx = 1 ∧ b ≠ s.cfg.preamble1) ∨
        (s.widx = 2 ∧ b ≠ s.cfg.preamble2)) ∧
    ((rxByte b s).cause = some .oversizeLength ↔
      s.widx = 7 ∧ s.cfg.maxPayload < (be16 (s.readBuf 6) b).toNat) ∧
    ((rxByte b s).cause = some .crcMismatch ↔
      s.widx = 9 + s.dlen.toNat ∧
        crc16 (s.bufPrefix (8 + s.dlen.toNat)) ≠ be16 (s.readBuf (8 + s.dlen.toNat)) b) ∧
    ((rxByte b s).cause = some .addressMismatch ↔
      s.widx = 9 + s.dlen.toNat ∧
        crc16 (s.bufPrefix (8 + s.dlen.toNat)) = be16 (s.readBuf (8 + s.dlen.toNat)) b ∧
        s.readBuf 4 ≠ s.ownAddr ∧ s.readBuf 4 ≠ s.bcastAddr) ∧
    (rxByte b s).cause ≠ some .crcIndexOutOfRange ∧ (rxByte b s).cause ≠ some .corruptState

/-- 42_frame_receiver.md R111 (a): after every drop and every delivery the receiver is as after hardware reset (clearing
`dlen`: 92 D10, log entry 15). -/
def Obligations.EveryDropAndDeliveryReturnsToTheInitialPosition : Prop :=
  ∀ (b : Byte) (s : State),
    ((rxByte b s).cause ≠ none ∨ (rxByte b s).state.rxOut ≠ s.rxOut) →
    (rxByte b s).state.widx = 0 ∧ (rxByte b s).state.dlen = 0

/-- 42_frame_receiver.md R93: at position 0 a byte other than `PREAMBLE[0]` leaves the state exactly as it was. -/
def Obligations.ExtraneousByteLeavesTheIdleReceiverAsItWas : Prop :=
  ∀ (b : Byte) (s : State), s.cfg.wf = true → s.widx = 0 → s.dlen = 0 → b ≠ s.cfg.preamble0 →
    exec (.feedByte b) s = .next s

/-- 42_frame_receiver.md R94, 70_reset_and_hazards.md R162: when `PREAMBLE[1]` differs from `PREAMBLE[0]`, a second
`PREAMBLE[0]` is dropped and not kept as a new first byte. That the drop clears `dlen` is the spec's own reading (R92,
92 D10, log entry 15). -/
def Obligations.FailedPreambleByteIsNotTriedAgain : Prop :=
  ∀ s : State, s.cfg.wf = true → s.widx = 0 → s.cfg.preamble1 ≠ s.cfg.preamble0 →
    ∃ t, exec (.feedBuf [s.cfg.preamble0, s.cfg.preamble0]) s = .next t ∧ t.widx = 0 ∧ t.dlen = 0 ∧
      t.rxOut = s.rxOut

/-! ### Invariants -/

/-- The invariant of 10_state.md R24 holds after hardware reset, for every well-formed configuration. -/
def Obligations.ResetMeetsTheInvariant : Prop :=
  ∀ cfg : Config, cfg.wf = true → (State.resetWith cfg).Inv ∧ (State.resetWith cfg).EmittedOk

/-- 10_state.md R24: every step keeps the invariant: configuration, storage, position and the bytes accumulated. -/
def Obligations.StepKeepsTheInvariant : Prop :=
  ∀ s t : State, s.Inv → step s = .next t → t.Inv

/-- 10_state.md R11, R17: from any state at all, an operation keeps both memories canonical and inside their indices. -/
def Obligations.EveryOperationKeepsTheStorage : Prop :=
  ∀ (i : Instr) (s t : State), s.StorageOk → exec i s = .next t → t.StorageOk

/-- Everything the block ever delivers or transmits is a frame of its protocol (42_frame_receiver.md R107,
41_frame_serializer.md R81, 30_encoding.md R50 to R53). -/
def Obligations.StepKeepsEveryEmittedFrameAFrame : Prop :=
  ∀ s t : State, s.Inv → s.EmittedOk → step s = .next t → t.EmittedOk

/-- 42_frame_receiver.md R109: in a reachable state the write index never wraps, and after each byte it is 0 or one
more. -/
def Obligations.WriteIndexNeverWraps : Prop :=
  ∀ (b : Byte) (s : State), s.Inv →
    s.widx + 1 < s.cfg.cap ∧ (s.append b).widx = s.widx + 1 ∧
    ∃ t, exec (.feedByte b) s = .next t ∧ (t.widx = 0 ∨ t.widx = s.widx + 1)

/-! ### Whole frames -/

/-- 42_frame_receiver.md R107, property 3 of 95_test_vectors.md section 4: a byte delivers nothing, or one frame of the
protocol whose target is the own or the broadcast address in force at that byte. -/
def Obligations.DeliveredFramesAreCorrectAndAddressedHere : Prop :=
  ∀ (b : Byte) (s t : State), s.Inv → exec (.feedByte b) s = .next t →
    t.rxOut = s.rxOut ∨
    ∃ (src tgt type : Byte) (payload : List Byte),
      payload.length ≤ s.cfg.maxPayload ∧ (tgt = s.ownAddr ∨ tgt = s.bcastAddr) ∧
      t.rxOut = s.rxOut ++ [wireFrame s.cfg src tgt type payload]

/-- What becomes of a complete frame that begins while `widx = 0` (42_frame_receiver.md R111 b, R105, R106, R107): nothing
before its last byte; then it is delivered whole exactly when its checksum is right and its target is the own or the
broadcast address, whoever sent it and whatever its type; the receiver is back in its initial state either way (that
`dlen` is 0 then is the spec's own reading: R92, 92 D10, log entry 15). -/
def Obligations.CompleteFrameIsDeliveredExactlyWhenRightAndAddressedHere : Prop :=
  ∀ (s : State) (src tgt type h l : Byte) (payload : List Byte),
    s.cfg.wf = true → s.widx = 0 → payload.length ≤ s.cfg.maxPayload →
    (∃ u, feedEach (frameBody s.cfg src tgt type payload ++ [h]) s = .next u ∧ u.rxOut = s.rxOut) ∧
    ∃ t, feedEach (frameBody s.cfg src tgt type payload ++ [h, l]) s = .next t ∧
      SameOutsideReceiver s t ∧ t.widx = 0 ∧ t.dlen = 0 ∧
      t.rxOut =
        if be16 h l = crc16 (frameBody s.cfg src tgt type payload) ∧ (tgt = s.ownAddr ∨ tgt = s.bcastAddr)
        then s.rxOut ++ [frameBody s.cfg src tgt type payload ++ [h, l]]
        else s.rxOut

/-- Back to back (30_encoding.md R54, 42_frame_receiver.md R110): two frames addressed to this node, given in one
`FEED_BUF` with no byte between them, are delivered both, in order. -/
def Obligations.FramesBackToBackAreBothDelivered : Prop :=
  ∀ (s : State) (src1 tgt1 type1 src2 tgt2 type2 : Byte) (p1 p2 : List Byte),
    s.cfg.wf = true → s.widx = 0 → p1.length ≤ s.cfg.maxPayload → p2.length ≤ s.cfg.maxPayload →
    (tgt1 = s.ownAddr ∨ tgt1 = s.bcastAddr) → (tgt2 = s.ownAddr ∨ tgt2 = s.bcastAddr) →
    ∃ t, exec (.feedBuf (wireFrame s.cfg src1 tgt1 type1 p1 ++ wireFrame s.cfg src2 tgt2 type2 p2)) s = .next t ∧
      t.rxOut = s.rxOut ++ [wireFrame s.cfg src1 tgt1 type1 p1, wireFrame s.cfg src2 tgt2 type2 p2] ∧ t.widx = 0

/-- 42_frame_receiver.md R114, the round trip between two copies of the block: the frame a successful `SEND` transmits,
fed byte by byte to a receiver with the same preamble, room for the payload, `widx = 0` and the destination among its two
addresses, is delivered exactly once, at its last byte, byte for byte. -/
def Obligations.SentFrameIsReceivedByteForByte : Prop :=
  ∀ (sender sent receiver : State) (dest type : Byte) (n : Half) (p : Option (List Byte)),
    exec (.send dest type n p) sender = .next sent → sent.resOut = sender.resOut ++ [.send .ok] →
    receiver.cfg.wf = true → receiver.widx = 0 →
    receiver.cfg.preamble0 = sender.cfg.preamble0 → receiver.cfg.preamble1 = sender.cfg.preamble1 →
    receiver.cfg.preamble2 = sender.cfg.preamble2 → n.toNat ≤ receiver.cfg.maxPayload →
    (receiver.ownAddr = dest ∨ receiver.bcastAddr = dest) →
    ∃ f u v, sent.txOut = sender.txOut ++ [f] ∧ f.length = 10 + n.toNat ∧
      feedEach f.dropLast receiver = .next u ∧ u.rxOut = receiver.rxOut ∧
      feedEach f receiver = .next v ∧ v.rxOut = receiver.rxOut ++ [f] ∧ v.widx = 0

/-- 42_frame_receiver.md R112, R110, property 4 of 95_test_vectors.md section 4: at most `1 + floor((n - 1) / 10)`
deliveries for `n >= 1` bytes, and at most `floor(n / 10)` from `widx = 0`. -/
def Obligations.DeliveriesAreBoundedByTheBytesFed : Prop :=
  ∀ (data : List Byte) (s t : State), s.Inv → exec (.feedBuf data) s = .next t →
    (data ≠ [] → t.rxOut.length ≤ s.rxOut.length + 1 + (data.length - 1) / 10) ∧
    (s.widx = 0 → t.rxOut.length ≤ s.rxOut.length + data.length / 10)

/-- 42_frame_receiver.md R111 (90 C4): from any reachable state the receiver is back at `widx = 0` after at most
`10 + MAX_PAYLOAD` further bytes, whatever they are. That `dlen` is 0 then is the spec's own reading (R92, 92 D10, log
entry 15). -/
def Obligations.ReceiverReturnsToItsInitialPositionInTime : Prop :=
  ∀ (bytes : List Byte) (s : State), s.Inv → bytes.length = 10 + s.cfg.maxPayload →
    ∃ k t, 1 ≤ k ∧ k ≤ bytes.length ∧ exec (.feedBuf (bytes.take k)) s = .next t ∧ t.widx = 0 ∧ t.dlen = 0

/-- 10_state.md R19, R17, R11: two reachable states that differ at most in stale bytes of `buf`, in the contents of `txf`
and in the free values step alike, and go on differing in these alone. -/
def Obligations.StaleBytesAreNeverObserved : Prop :=
  ∀ s t : State, s.Inv → t.Inv → SameButUnobservable s t →
    (∀ s', step s = .next s' → ∃ t', step t = .next t' ∧ SameButUnobservable s' t') ∧
    (∀ r, step s = .refused r → step t = .refused r)
end

