-- ==== Sys2Proof/Laws/State.lean ====
section
/-! SUPPORT. One lemma per field of State and update of it, so that no proof unfolds a record update. -/

-- One theorem after another: elaborating this many at once starts more threads than a memory limit may allow.
set_option Elab.async false

namespace Sys2Proof.Machine

/-! ### `writeBuf` -/

@[simp] theorem State.writeBuf_cfg (s : State) (i : Nat) (v : Byte) : (s.writeBuf i v).cfg = s.cfg := rfl
@[simp] theorem State.writeBuf_buf (s : State) (i : Nat) (v : Byte) : (s.writeBuf i v).buf = Memory.write s.buf i v := rfl
@[simp] theorem State.writeBuf_widx (s : State) (i : Nat) (v : Byte) : (s.writeBuf i v).widx = s.widx := rfl
@[simp] theorem State.writeBuf_dlen (s : State) (i : Nat) (v : Byte) : (s.writeBuf i v).dlen = s.dlen := rfl
@[simp] theorem State.writeBuf_ownAddr (s : State) (i : Nat) (v : Byte) : (s.writeBuf i v).ownAddr = s.ownAddr := rfl
@[simp] theorem State.writeBuf_bcastAddr (s : State) (i : Nat) (v : Byte) : (s.writeBuf i v).bcastAddr = s.bcastAddr := rfl
@[simp] theorem State.writeBuf_txf (s : State) (i : Nat) (v : Byte) : (s.writeBuf i v).txf = s.txf := rfl
@[simp] theorem State.writeBuf_rxOut (s : State) (i : Nat) (v : Byte) : (s.writeBuf i v).rxOut = s.rxOut := rfl
@[simp] theorem State.writeBuf_txOut (s : State) (i : Nat) (v : Byte) : (s.writeBuf i v).txOut = s.txOut := rfl
@[simp] theorem State.writeBuf_resOut (s : State) (i : Nat) (v : Byte) : (s.writeBuf i v).resOut = s.resOut := rfl
@[simp] theorem State.writeBuf_pending (s : State) (i : Nat) (v : Byte) : (s.writeBuf i v).pending = s.pending := rfl
@[simp] theorem State.writeBuf_epoch (s : State) (i : Nat) (v : Byte) : (s.writeBuf i v).epoch = s.epoch := rfl

/-! ### `append` -/

@[simp] theorem State.append_cfg (s : State) (b : Byte) : (s.append b).cfg = s.cfg := rfl
@[simp] theorem State.append_buf (s : State) (b : Byte) : (s.append b).buf = Memory.write s.buf s.widx b := rfl
@[simp] theorem State.append_widx (s : State) (b : Byte) : (s.append b).widx = (s.widx + 1) % s.cfg.cap := rfl
@[simp] theorem State.append_dlen (s : State) (b : Byte) : (s.append b).dlen = s.dlen := rfl
@[simp] theorem State.append_ownAddr (s : State) (b : Byte) : (s.append b).ownAddr = s.ownAddr := rfl
@[simp] theorem State.append_bcastAddr (s : State) (b : Byte) : (s.append b).bcastAddr = s.bcastAddr := rfl
@[simp] theorem State.append_txf (s : State) (b : Byte) : (s.append b).txf = s.txf := rfl
@[simp] theorem State.append_rxOut (s : State) (b : Byte) : (s.append b).rxOut = s.rxOut := rfl
@[simp] theorem State.append_txOut (s : State) (b : Byte) : (s.append b).txOut = s.txOut := rfl
@[simp] theorem State.append_resOut (s : State) (b : Byte) : (s.append b).resOut = s.resOut := rfl
@[simp] theorem State.append_pending (s : State) (b : Byte) : (s.append b).pending = s.pending := rfl
@[simp] theorem State.append_epoch (s : State) (b : Byte) : (s.append b).epoch = s.epoch := rfl

/-! ### `rxReset` -/

@[simp] theorem State.rxReset_cfg (s : State) : (s.rxReset).cfg = s.cfg := rfl
@[simp] theorem State.rxReset_buf (s : State) : (s.rxReset).buf = s.buf := rfl
@[simp] theorem State.rxReset_widx (s : State) : (s.rxReset).widx = 0 := rfl
@[simp] theorem State.rxReset_dlen (s : State) : (s.rxReset).dlen = 0 := rfl
@[simp] theorem State.rxReset_ownAddr (s : State) : (s.rxReset).ownAddr = s.ownAddr := rfl
@[simp] theorem State.rxReset_bcastAddr (s : State) : (s.rxReset).bcastAddr = s.bcastAddr := rfl
@[simp] theorem State.rxReset_txf (s : State) : (s.rxReset).txf = s.txf := rfl
@[simp] theorem State.rxReset_rxOut (s : State) : (s.rxReset).rxOut = s.rxOut := rfl
@[simp] theorem State.rxReset_txOut (s : State) : (s.rxReset).txOut = s.txOut := rfl
@[simp] theorem State.rxReset_resOut (s : State) : (s.rxReset).resOut = s.resOut := rfl
@[simp] theorem State.rxReset_pending (s : State) : (s.rxReset).pending = s.pending := rfl
@[simp] theorem State.rxReset_epoch (s : State) : (s.rxReset).epoch = s.epoch := rfl

/-! ### `latchLength` -/

@[simp] theorem State.latchLength_cfg (s : State) : (s.latchLength).cfg = s.cfg := rfl
@[simp] theorem State.latchLength_buf (s : State) : (s.latchLength).buf = s.buf := rfl
@[simp] theorem State.latchLength_widx (s : State) : (s.latchLength).widx = s.widx := rfl
@[simp] theorem State.latchLength_dlen (s : State) : (s.latchLength).dlen = s.readBuf16 6 := rfl
@[simp] theorem State.latchLength_ownAddr (s : State) : (s.latchLength).ownAddr = s.ownAddr := rfl
@[simp] theorem State.latchLength_bcastAddr (s : State) : (s.latchLength).bcastAddr = s.bcastAddr := rfl
@[simp] theorem State.latchLength_txf (s : State) : (s.latchLength).txf = s.txf := rfl
@[simp] theorem State.latchLength_rxOut (s : State) : (s.latchLength).rxOut = s.rxOut := rfl
@[simp] theorem State.latchLength_txOut (s : State) : (s.latchLength).txOut = s.txOut := rfl
@[simp] theorem State.latchLength_resOut (s : State) : (s.latchLength).resOut = s.resOut := rfl
@[simp] theorem State.latchLength_pending (s : State) : (s.latchLength).pending = s.pending := rfl
@[simp] theorem State.latchLength_epoch (s : State) : (s.latchLength).epoch = s.epoch := rfl

/-! ### `txWrite` -/

@[simp] theorem State.txWrite_cfg (s : State) (i : Nat) (v : Byte) : (s.txWrite i v).cfg = s.cfg := rfl
@[simp] theorem State.txWrite_buf (s : State) (i : Nat) (v : Byte) : (s.txWrite i v).buf = s.buf := rfl
@[simp] theorem State.txWrite_widx (s : State) (i : Nat) (v : Byte) : (s.txWrite i v).widx = s.widx := rfl
@[simp] theorem State.txWrite_dlen (s : State) (i : Nat) (v : Byte) : (s.txWrite i v).dlen = s.dlen := rfl
@[simp] theorem State.txWrite_ownAddr (s : State) (i : Nat) (v : Byte) : (s.txWrite i v).ownAddr = s.ownAddr := rfl
@[simp] theorem State.txWrite_bcastAddr (s : State) (i : Nat) (v : Byte) : (s.txWrite i v).bcastAddr = s.bcastAddr := rfl
@[simp] theorem State.txWrite_txf (s : State) (i : Nat) (v : Byte) : (s.txWrite i v).txf = Memory.write s.txf i v := rfl
@[simp] theorem State.txWrite_rxOut (s : State) (i : Nat) (v : Byte) : (s.txWrite i v).rxOut = s.rxOut := rfl
@[simp] theorem State.txWrite_txOut (s : State) (i : Nat) (v : Byte) : (s.txWrite i v).txOut = s.txOut := rfl
@[simp] theorem State.txWrite_resOut (s : State) (i : Nat) (v : Byte) : (s.txWrite i v).resOut = s.resOut := rfl
@[simp] theorem State.txWrite_pending (s : State) (i : Nat) (v : Byte) : (s.txWrite i v).pending = s.pending := rfl
@[simp] theorem State.txWrite_epoch (s : State) (i : Nat) (v : Byte) : (s.txWrite i v).epoch = s.epoch := rfl

/-! ### `deliver` -/

@[simp] theorem State.deliver_cfg (s : State) (seq : List Byte) : (s.deliver seq).cfg = s.cfg := rfl
@[simp] theorem State.deliver_buf (s : State) (seq : List Byte) : (s.deliver seq).buf = s.buf := rfl
@[simp] theorem State.deliver_widx (s : State) (seq : List Byte) : (s.deliver seq).widx = s.widx := rfl
@[simp] theorem State.deliver_dlen (s : State) (seq : List Byte) : (s.deliver seq).dlen = s.dlen := rfl
@[simp] theorem State.deliver_ownAddr (s : State) (seq : List Byte) : (s.deliver seq).ownAddr = s.ownAddr := rfl
@[simp] theorem State.deliver_bcastAddr (s : State) (seq : List Byte) : (s.deliver seq).bcastAddr = s.bcastAddr := rfl
@[simp] theorem State.deliver_txf (s : State) (seq : List Byte) : (s.deliver seq).txf = s.txf := rfl
@[simp] theorem State.deliver_rxOut (s : State) (seq : List Byte) : (s.deliver seq).rxOut = s.rxOut ++ [seq] := rfl
@[simp] theorem State.deliver_txOut (s : State) (seq : List Byte) : (s.deliver seq).txOut = s.txOut := rfl
@[simp] theorem State.deliver_resOut (s : State) (seq : List Byte) : (s.deliver seq).resOut = s.resOut := rfl
@[simp] theorem State.deliver_pending (s : State) (seq : List Byte) : (s.deliver seq).pending = s.pending := rfl
@[simp] theorem State.deliver_epoch (s : State) (seq : List Byte) : (s.deliver seq).epoch = s.epoch := rfl

/-! ### `transmit` -/

@[simp] theorem State.transmit_cfg (s : State) (seq : List Byte) : (s.transmit seq).cfg = s.cfg := rfl
@[simp] theorem State.transmit_buf (s : State) (seq : List Byte) : (s.transmit seq).buf = s.buf := rfl
@[simp] theorem State.transmit_widx (s : State) (seq : List Byte) : (s.transmit seq).widx = s.widx := rfl
@[simp] theorem State.transmit_dlen (s : State) (seq : List Byte) : (s.transmit seq).dlen = s.dlen := rfl
@[simp] theorem State.transmit_ownAddr (s : State) (seq : List Byte) : (s.transmit seq).ownAddr = s.ownAddr := rfl
@[simp] theorem State.transmit_bcastAddr (s : State) (seq : List Byte) : (s.transmit seq).bcastAddr = s.bcastAddr := rfl
@[simp] theorem State.transmit_txf (s : State) (seq : List Byte) : (s.transmit seq).txf = s.txf := rfl
@[simp] theorem State.transmit_rxOut (s : State) (seq : List Byte) : (s.transmit seq).rxOut = s.rxOut := rfl
@[simp] theorem State.transmit_txOut (s : State) (seq : List Byte) : (s.transmit seq).txOut = s.txOut ++ [seq] := rfl
@[simp] theorem State.transmit_resOut (s : State) (seq : List Byte) : (s.transmit seq).resOut = s.resOut := rfl
@[simp] theorem State.transmit_pending (s : State) (seq : List Byte) : (s.transmit seq).pending = s.pending := rfl
@[simp] theorem State.transmit_epoch (s : State) (seq : List Byte) : (s.transmit seq).epoch = s.epoch := rfl

/-! ### `giveResult` -/

@[simp] theorem State.giveResult_cfg (s : State) (r : CmdResult) : (s.giveResult r).cfg = s.cfg := rfl
@[simp] theorem State.giveResult_buf (s : State) (r : CmdResult) : (s.giveResult r).buf = s.buf := rfl
@[simp] theorem State.giveResult_widx (s : State) (r : CmdResult) : (s.giveResult r).widx = s.widx := rfl
@[simp] theorem State.giveResult_dlen (s : State) (r : CmdResult) : (s.giveResult r).dlen = s.dlen := rfl
@[simp] theorem State.giveResult_ownAddr (s : State) (r : CmdResult) : (s.giveResult r).ownAddr = s.ownAddr := rfl
@[simp] theorem State.giveResult_bcastAddr (s : State) (r : CmdResult) : (s.giveResult r).bcastAddr = s.bcastAddr := rfl
@[simp] theorem State.giveResult_txf (s : State) (r : CmdResult) : (s.giveResult r).txf = s.txf := rfl
@[simp] theorem State.giveResult_rxOut (s : State) (r : CmdResult) : (s.giveResult r).rxOut = s.rxOut := rfl
@[simp] theorem State.giveResult_txOut (s : State) (r : CmdResult) : (s.giveResult r).txOut = s.txOut := rfl
@[simp] theorem State.giveResult_resOut (s : State) (r : CmdResult) : (s.giveResult r).resOut = s.resOut ++ [r] := rfl
@[simp] theorem State.giveResult_pending (s : State) (r : CmdResult) : (s.giveResult r).pending = s.pending := rfl
@[simp] theorem State.giveResult_epoch (s : State) (r : CmdResult) : (s.giveResult r).epoch = s.epoch := rfl

/-! ### `hardwareReset` -/

@[simp] theorem State.hardwareReset_cfg (s : State) : (s.hardwareReset).cfg = s.cfg := rfl
@[simp] theorem State.hardwareReset_buf (s : State) : (s.hardwareReset).buf = [] := rfl
@[simp] theorem State.hardwareReset_widx (s : State) : (s.hardwareReset).widx = 0 := rfl
@[simp] theorem State.hardwareReset_dlen (s : State) : (s.hardwareReset).dlen = 0 := rfl
@[simp] theorem State.hardwareReset_ownAddr (s : State) : (s.hardwareReset).ownAddr = 0 := rfl
@[simp] theorem State.hardwareReset_bcastAddr (s : State) : (s.hardwareReset).bcastAddr = 0 := rfl
@[simp] theorem State.hardwareReset_txf (s : State) : (s.hardwareReset).txf = [] := rfl
@[simp] theorem State.hardwareReset_rxOut (s : State) : (s.hardwareReset).rxOut = [] := rfl
@[simp] theorem State.hardwareReset_txOut (s : State) : (s.hardwareReset).txOut = [] := rfl
@[simp] theorem State.hardwareReset_resOut (s : State) : (s.hardwareReset).resOut = [] := rfl
@[simp] theorem State.hardwareReset_pending (s : State) : (s.hardwareReset).pending = s.pending := rfl
@[simp] theorem State.hardwareReset_epoch (s : State) : (s.hardwareReset).epoch = s.epoch + 1 := rfl

/-! ### `resetWith` -/

@[simp] theorem State.resetWith_cfg (cfg : Config) : (State.resetWith cfg).cfg = cfg := rfl
@[simp] theorem State.resetWith_buf (cfg : Config) : (State.resetWith cfg).buf = [] := rfl
@[simp] theorem State.resetWith_widx (cfg : Config) : (State.resetWith cfg).widx = 0 := rfl
@[simp] theorem State.resetWith_dlen (cfg : Config) : (State.resetWith cfg).dlen = 0 := rfl
@[simp] theorem State.resetWith_ownAddr (cfg : Config) : (State.resetWith cfg).ownAddr = 0 := rfl
@[simp] theorem State.resetWith_bcastAddr (cfg : Config) : (State.resetWith cfg).bcastAddr = 0 := rfl
@[simp] theorem State.resetWith_txf (cfg : Config) : (State.resetWith cfg).txf = [] := rfl
@[simp] theorem State.resetWith_rxOut (cfg : Config) : (State.resetWith cfg).rxOut = [] := rfl
@[simp] theorem State.resetWith_txOut (cfg : Config) : (State.resetWith cfg).txOut = [] := rfl
@[simp] theorem State.resetWith_resOut (cfg : Config) : (State.resetWith cfg).resOut = [] := rfl
@[simp] theorem State.resetWith_pending (cfg : Config) : (State.resetWith cfg).pending = [] := rfl
@[simp] theorem State.resetWith_epoch (cfg : Config) : (State.resetWith cfg).epoch = 0 := rfl

/-! ### The outcomes of a transition -/

@[simp] theorem State.accept_state (s : State) : s.accept.state = s := rfl
@[simp] theorem State.accept_cause (s : State) : s.accept.cause = none := rfl
@[simp] theorem State.drop_state (s : State) (c : DropCause) : (s.drop c).state = s.rxReset := rfl
@[simp] theorem State.drop_cause (s : State) (c : DropCause) : (s.drop c).cause = some c := rfl

/-! ### `txWriteAll` changes `txf` alone -/

@[simp] theorem State.txWriteAll_cfg (s : State) (i : Nat) (bytes : List Byte) : (s.txWriteAll i bytes).cfg = s.cfg := by
  induction bytes generalizing s i with
  | nil => rfl
  | cons v vs ih => simp [State.txWriteAll, ih]

@[simp] theorem State.txWriteAll_buf (s : State) (i : Nat) (bytes : List Byte) : (s.txWriteAll i bytes).buf = s.buf := by
  induction bytes generalizing s i with
  | nil => rfl
  | cons v vs ih => simp [State.txWriteAll, ih]

@[simp] theorem State.txWriteAll_widx (s : State) (i : Nat) (bytes : List Byte) : (s.txWriteAll i bytes).widx = s.widx := by
  induction bytes generalizing s i with
  | nil => rfl
  | cons v vs ih => simp [State.txWriteAll, ih]

@[simp] theorem State.txWriteAll_dlen (s : State) (i : Nat) (bytes : List Byte) : (s.txWriteAll i bytes).dlen = s.dlen := by
  induction bytes generalizing s i with
  | nil => rfl
  | cons v vs ih => simp [State.txWriteAll, ih]

@[simp] theorem State.txWriteAll_ownAddr (s : State) (i : Nat) (bytes : List Byte) : (s.txWriteAll i bytes).ownAddr = s.ownAddr := by
  induction bytes generalizing s i with
  | nil => rfl
  | cons v vs ih => simp [State.txWriteAll, ih]

@[simp] theorem State.txWriteAll_bcastAddr (s : State) (i : Nat) (bytes : List Byte) : (s.txWriteAll i bytes).bcastAddr = s.bcastAddr := by
  induction bytes generalizing s i with
  | nil => rfl
  | cons v vs ih => simp [State.txWriteAll, ih]

@[simp] theorem State.txWriteAll_rxOut (s : State) (i : Nat) (bytes : List Byte) : (s.txWriteAll i bytes).rxOut = s.rxOut := by
  induction bytes generalizing s i with
  | nil => rfl
  | cons v vs ih => simp [State.txWriteAll, ih]

@[simp] theorem State.txWriteAll_txOut (s : State) (i : Nat) (bytes : List Byte) : (s.txWriteAll i bytes).txOut = s.txOut := by
  induction bytes generalizing s i with
  | nil => rfl
  | cons v vs ih => simp [State.txWriteAll, ih]

@[simp] theorem State.txWriteAll_resOut (s : State) (i : Nat) (bytes : List Byte) : (s.txWriteAll i bytes).resOut = s.resOut := by
  induction bytes generalizing s i with
  | nil => rfl
  | cons v vs ih => simp [State.txWriteAll, ih]

@[simp] theorem State.txWriteAll_pending (s : State) (i : Nat) (bytes : List Byte) : (s.txWriteAll i bytes).pending = s.pending := by
  induction bytes generalizing s i with
  | nil => rfl
  | cons v vs ih => simp [State.txWriteAll, ih]

@[simp] theorem State.txWriteAll_epoch (s : State) (i : Nat) (bytes : List Byte) : (s.txWriteAll i bytes).epoch = s.epoch := by
  induction bytes generalizing s i with
  | nil => rfl
  | cons v vs ih => simp [State.txWriteAll, ih]

end Sys2Proof.Machine
end

