-- ==== Sys2Proof/Laws/Memory.lean ====
section
/-! SUPPORT. The laws of the two byte memories: read after write, and that every memory operation keeps the canonical
form. -/

namespace Sys2Proof.Machine

@[simp] theorem Memory.read?_nil (i : Nat) : Memory.read? [] i = none := rfl

@[simp] theorem Memory.write_nil (i : Nat) (v : Byte) : Memory.write [] i v = [(i, v)] := rfl

@[simp] theorem Memory.read?_write_same (m : Memory) (i : Nat) (v : Byte) :
    Memory.read? (Memory.write m i v) i = some v := by
  induction m with
  | nil => simp [Memory.read?]
  | cons c rest ih =>
    obtain ⟨a, w⟩ := c
    simp only [Memory.write]
    split
    · simp [Memory.read?]
    · split
      · simp [Memory.read?]
      · have : a ≠ i := by omega
        simp [Memory.read?, this, ih]

theorem Memory.read?_write_other (m : Memory) (i j : Nat) (v : Byte) (h : j ≠ i) :
    Memory.read? (Memory.write m i v) j = Memory.read? m j := by
  induction m with
  | nil => simp [Memory.read?, Ne.symm h]
  | cons c rest ih =>
    obtain ⟨a, w⟩ := c
    simp only [Memory.write]
    split
    · simp [Memory.read?, Ne.symm h]
    · split
      · rename_i hia
        simp [Memory.read?, ← hia, Ne.symm h]
      · simp [Memory.read?, ih]

theorem Memory.read?_write (m : Memory) (i j : Nat) (v : Byte) :
    Memory.read? (Memory.write m i v) j = if j = i then some v else Memory.read? m j := by
  by_cases h : j = i
  · subst h; simp
  · simp [h, Memory.read?_write_other m i j v h]

/-- The only index a write adds is the one it stores to. -/
theorem Memory.mem_write (m : Memory) (i : Nat) (v : Byte) (c : Host.Cell) (h : c ∈ Memory.write m i v) :
    c = (i, v) ∨ c ∈ m := by
  induction m with
  | nil => simpa using h
  | cons d rest ih =>
    obtain ⟨a, w⟩ := d
    simp only [Memory.write] at h
    split at h
    · simpa using h
    · split at h
      · rcases List.mem_cons.1 h with h | h
        · exact .inl h
        · exact .inr (List.mem_cons_of_mem _ h)
      · rcases List.mem_cons.1 h with h | h
        · exact .inr (h ▸ List.mem_cons_self)
        · rcases ih h with h | h
          · exact .inl h
          · exact .inr (List.mem_cons_of_mem _ h)

/-- A write keeps the canonical form. -/
theorem Memory.wf_write (m : Memory) (i : Nat) (v : Byte) (h : Memory.wf m) : Memory.wf (Memory.write m i v) := by
  induction m with
  | nil => simp [Memory.wf]
  | cons d rest ih =>
    obtain ⟨a, w⟩ := d
    obtain ⟨hhead, hrest⟩ := List.pairwise_cons.1 h
    simp only [Memory.write]
    split
    · rename_i hia
      refine List.pairwise_cons.2 ⟨?_, h⟩
      intro c hc
      rcases List.mem_cons.1 hc with rfl | hc
      · exact hia
      · exact lt_trans hia (hhead c hc)
    · split
      · rename_i hia
        refine List.pairwise_cons.2 ⟨?_, hrest⟩
        intro c hc
        exact hia ▸ hhead c hc
      · refine List.pairwise_cons.2 ⟨?_, ih hrest⟩
        intro c hc
        rcases Memory.mem_write rest i v c hc with rfl | hc
        · show a < i
          omega
        · exact hhead c hc

/-- A write inside a bound keeps every index inside it. -/
theorem Memory.inside_write (m : Memory) (i : Nat) (v : Byte) (bound : Nat) (hi : i < bound)
    (h : ∀ c ∈ m, c.1 < bound) : ∀ c ∈ Memory.write m i v, c.1 < bound := by
  intro c hc
  rcases Memory.mem_write m i v c hc with rfl | hc
  · exact hi
  · exact h c hc

/-- The empty memory, the one at reset, is in canonical form. -/
theorem Memory.wf_nil : Memory.wf [] := List.Pairwise.nil

end Sys2Proof.Machine
end

