-- ==== Sys2Proof/Laws/Operations.lean ====
section
/-! SUPPORT. One lemma per shared operation that says what it can do: reads after the operations, the transitions of the
receiver, feeding bytes, and building a frame. -/

namespace Sys2Proof.Machine

/-! ### Reading the buffers -/

/-- A read of `buf` depends on `buf` and `epoch` alone. -/
theorem State.readBuf_congr (s t : State) (hb : t.buf = s.buf) (he : t.epoch = s.epoch) (i : Nat) :
    t.readBuf i = s.readBuf i := by
  simp [State.readBuf, hb, he]

theorem State.readTx_congr (s t : State) (hb : t.txf = s.txf) (he : t.epoch = s.epoch) (i : Nat) :
    t.readTx i = s.readTx i := by
  simp [State.readTx, hb, he]

theorem State.readBuf_append (s : State) (b : Byte) (i : Nat) :
    (s.append b).readBuf i = if i = s.widx then b else s.readBuf i := by
  simp only [State.readBuf, State.append_buf, State.append_epoch, Memory.read?_write]
  split <;> simp

theorem State.readTx_txWrite (s : State) (i j : Nat) (v : Byte) :
    (s.txWrite i v).readTx j = if j = i then v else s.readTx j := by
  simp only [State.readTx, State.txWrite_txf, State.txWrite_epoch, Memory.read?_write]
  split <;> simp

@[simp] theorem State.readBuf_rxReset (s : State) (i : Nat) : s.rxReset.readBuf i = s.readBuf i := rfl
@[simp] theorem State.readBuf_latchLength (s : State) (i : Nat) : s.latchLength.readBuf i = s.readBuf i := rfl
@[simp] theorem State.readBuf_txWrite (s : State) (i j : Nat) (v : Byte) :
    (s.txWrite i v).readBuf j = s.readBuf j := rfl
@[simp] theorem State.readBuf_deliver (s : State) (q : List Byte) (i : Nat) : (s.deliver q).readBuf i = s.readBuf i := rfl
@[simp] theorem State.readBuf_transmit (s : State) (q : List Byte) (i : Nat) :
    (s.transmit q).readBuf i = s.readBuf i := rfl
@[simp] theorem State.readBuf_giveResult (s : State) (r : CmdResult) (i : Nat) :
    (s.giveResult r).readBuf i = s.readBuf i := rfl
@[simp] theorem State.readTx_transmit (s : State) (q : List Byte) (i : Nat) : (s.transmit q).readTx i = s.readTx i := rfl
@[simp] theorem State.readTx_giveResult (s : State) (r : CmdResult) (i : Nat) :
    (s.giveResult r).readTx i = s.readTx i := rfl

@[simp] theorem State.bufPrefix_length (s : State) (k : Nat) : (s.bufPrefix k).length = k := by
  simp [State.bufPrefix]

@[simp] theorem State.txPrefix_length (s : State) (k : Nat) : (s.txPrefix k).length = k := by
  simp [State.txPrefix]

/-- Two states that read the same below `k` have the same first `k` bytes. -/
theorem State.bufPrefix_congr (s t : State) (k : Nat) (h : ∀ i, i < k → t.readBuf i = s.readBuf i) :
    t.bufPrefix k = s.bufPrefix k := by
  refine List.map_congr_left fun i hi => h i ?_
  simpa using hi

theorem State.bufPrefix_succ (s : State) (k : Nat) : s.bufPrefix (k + 1) = s.bufPrefix k ++ [s.readBuf k] := by
  simp [State.bufPrefix, List.range_succ]

theorem State.txPrefix_succ (s : State) (k : Nat) : s.txPrefix (k + 1) = s.txPrefix k ++ [s.readTx k] := by
  simp [State.txPrefix, List.range_succ]

theorem State.txPrefix_congr (s t : State) (k : Nat) (h : ∀ i, i < k → t.readTx i = s.readTx i) :
    t.txPrefix k = s.txPrefix k := by
  refine List.map_congr_left fun i hi => h i ?_
  simpa using hi

/-- After an append at the end of `k` accumulated bytes, the first `k + 1` bytes are those and the new one. -/
theorem State.bufPrefix_append (s : State) (b : Byte) :
    (s.append b).bufPrefix (s.widx + 1) = s.bufPrefix s.widx ++ [b] := by
  rw [State.bufPrefix_succ]
  congr 1
  · exact State.bufPrefix_congr _ _ _ fun i hi => by simp [State.readBuf_append, Nat.ne_of_lt hi]
  · simp [State.readBuf_append]

/-! ### Building a frame in `txf` -/

/-- `txWriteAll` stores its bytes at consecutive indices and nothing else. -/
theorem State.readTx_txWriteAll (s : State) (i j : Nat) (bytes : List Byte) :
    (s.txWriteAll i bytes).readTx j = if i ≤ j then (bytes[j - i]?).getD (s.readTx j) else s.readTx j := by
  induction bytes generalizing s i with
  | nil => simp [State.txWriteAll]
  | cons v vs ih =>
    rw [State.txWriteAll, ih, State.readTx_txWrite]
    by_cases h1 : i + 1 ≤ j
    · have h2 : j ≠ i := by omega
      have h3 : j - i = (j - (i + 1)) + 1 := by omega
      simp [h1, h2, h3, show i ≤ j by omega]
    · by_cases h2 : j = i
      · subst h2; simp
      · simp [h1, h2, show ¬ i ≤ j by omega]

/-- Writing at the end of a prefix extends it. -/
theorem State.txPrefix_txWriteAll (s : State) (k : Nat) (bytes : List Byte) :
    (s.txWriteAll k bytes).txPrefix (k + bytes.length) = s.txPrefix k ++ bytes := by
  induction bytes generalizing s k with
  | nil => simp [State.txWriteAll]
  | cons v vs ih =>
    have h := ih (s.txWrite k v) (k + 1)
    rw [State.txWriteAll, show k + (v :: vs).length = (k + 1) + vs.length by simp; omega, h, State.txPrefix_succ]
    simp only [List.append_assoc, List.cons_append, List.nil_append]
    congr 1
    · exact State.txPrefix_congr _ _ _ fun i hi => by simp [State.readTx_txWrite, Nat.ne_of_lt hi]
    · simp [State.readTx_txWrite]

/-! ### The outcomes -/

theorem State.guardBuf_next (s t : State) (h : s.widx < s.cfg.cap) : s.guardBuf t = .next t := by
  simp [State.guardBuf, h]

/-- The one way `guardBuf` answers a next state. -/
theorem State.guardBuf_eq_next (s t u : State) (h : s.guardBuf t = .next u) : s.widx < s.cfg.cap ∧ u = t := by
  unfold State.guardBuf at h
  split at h
  · exact ⟨‹_›, by injection h with h; exact h.symm⟩
  · cases h

/-- The one way `atPosition` answers a next state. -/
theorem State.atPosition_eq_next (s t u : State) (p : Position) (h : s.atPosition p t = .next u) :
    positionOf s.widx = p ∧ s.widx < s.cfg.cap ∧ u = t := by
  unfold State.atPosition at h
  split at h
  · exact ⟨‹_›, State.guardBuf_eq_next s t u h⟩
  · cases h

/-! ### Positions -/

theorem positionOf_of_ge (w : Nat) (h : 8 ≤ w) : positionOf w = .accumulatePayloadAndCrc := by
  unfold positionOf
  split <;> first | omega | rfl

theorem positionOf_eq_accumulate (w : Nat) (h : positionOf w = .accumulatePayloadAndCrc) : 8 ≤ w := by
  by_contra hw
  have hlt : w < 8 := by omega
  interval_cases w <;> cases h

/-! ### Transitions -/

/-- What a transition of the receiver can do: append the byte; append it and latch the length; drop; or append it, deliver
the complete frame and reset. -/
inductive RxCases (b : Byte) (s : State) (r : RxStep) : Prop where
  | appended (h : r = (s.append b).accept)
  | latched (hw : s.widx = 7) (h : r = (s.append b).latchLength.accept)
      (hlen : (s.append b).latchLength.dlen.toNat ≤ s.cfg.maxPayload)
  | droppedBefore (c : DropCause) (h : r = s.drop c)
  | droppedAfter (c : DropCause) (h : r.state = (s.append b).rxReset ∧ r.cause = some c)
  | delivered (hw : 8 ≤ s.widx) (hfull : s.widx + 1 = 10 + s.dlen.toNat)
      (hcrc : (s.append b).expectedCrc = (s.append b).receivedCrc) (haddr : (s.append b).addressMatches = true)
      (h : r = (s.append b).deliverFrame.accept)

theorem rxByte_cases (b : Byte) (s : State) : RxCases b s (rxByte b s) := by
  unfold rxByte
  split
  · simp only [rxP0, State.matchPreamble]
    split
    · exact .appended rfl
    · exact .droppedBefore _ rfl
  · simp only [rxP1, State.matchPreamble]
    split
    · exact .appended rfl
    · exact .droppedBefore _ rfl
  · simp only [rxP2, State.matchPreamble]
    split
    · exact .appended rfl
    · exact .droppedBefore _ rfl
  · exact .appended rfl
  · exact .appended rfl
  · exact .appended rfl
  · exact .appended rfl
  · rename_i hp
    have hw : s.widx = 7 := by
      unfold positionOf at hp
      split at hp <;> first | assumption | cases hp
    simp only [rxLenL, State.checkLength]
    split
    · exact .droppedAfter _ ⟨rfl, rfl⟩
    · rename_i hl
      refine .latched hw rfl ?_
      simpa [State.lengthOversize] using hl
  · rename_i hp
    have hw := positionOf_eq_accumulate _ hp
    simp only [rxAcc, State.checkComplete]
    split
    · rename_i hfull
      simp only [State.validate]
      split
      · exact .droppedAfter _ ⟨rfl, rfl⟩
      · split
        · exact .droppedAfter _ ⟨rfl, rfl⟩
        · rename_i hcrc
          split
          · exact .droppedAfter _ ⟨rfl, rfl⟩
          · rename_i haddr
            exact .delivered hw hfull (not_not.1 hcrc) (by simpa using haddr) rfl
    · split
      · exact .droppedAfter _ ⟨rfl, rfl⟩
      · exact .appended rfl

/-- A transition touches the parse state and the receive trace alone. -/
theorem rxByte_outside (b : Byte) (s : State) : SameOutsideReceiver s (rxByte b s).state := by
  cases rxByte_cases b s with
  | appended h => rw [h]; constructor <;> rfl
  | latched _ h _ => rw [h]; constructor <;> rfl
  | droppedBefore c h => rw [h]; constructor <;> rfl
  | droppedAfter c h => rw [h.1]; constructor <;> rfl
  | delivered _ _ _ _ h => rw [h]; constructor <;> rfl

/-- A transition stores at `widx` and nowhere else. -/
theorem rxByte_buf (b : Byte) (s : State) :
    (rxByte b s).state.buf = s.buf ∨ (rxByte b s).state.buf = Memory.write s.buf s.widx b := by
  cases rxByte_cases b s with
  | appended h => rw [h]; exact .inr rfl
  | latched _ h _ => rw [h]; exact .inr rfl
  | droppedBefore c h => rw [h]; exact .inl rfl
  | droppedAfter c h => rw [h.1]; exact .inr rfl
  | delivered _ _ _ _ h => rw [h]; exact .inr rfl

/-- After a transition `widx` is 0 or one more, modulo `CAP`. -/
theorem rxByte_widx (b : Byte) (s : State) :
    (rxByte b s).state.widx = 0 ∨ (rxByte b s).state.widx = (s.widx + 1) % s.cfg.cap := by
  cases rxByte_cases b s with
  | appended h => rw [h]; exact .inr rfl
  | latched _ h _ => rw [h]; exact .inr rfl
  | droppedBefore c h => rw [h]; exact .inl rfl
  | droppedAfter c h => rw [h.1]; exact .inl rfl
  | delivered _ _ _ _ h => rw [h]; exact .inl rfl

/-- After a transition `widx` is an index of `buf` again. -/
theorem rxByte_inside (b : Byte) (s : State) (h : s.widx < s.cfg.cap) :
    (rxByte b s).state.widx < (rxByte b s).state.cfg.cap := by
  rw [(rxByte_outside b s).cfg]
  have hpos : 0 < s.cfg.cap := by omega
  rcases rxByte_widx b s with h0 | h0
  · omega
  · rw [h0]
    exact Nat.mod_lt _ hpos

/-! ### Feeding many bytes -/

/-- The states of a run of transitions. -/
def rxAll (bytes : List Byte) (s : State) : State :=
  match bytes with
  | [] => s
  | b :: rest => rxAll rest (rxByte b s).state

theorem rxAll_append (xs ys : List Byte) (s : State) : rxAll (xs ++ ys) s = rxAll ys (rxAll xs s) := by
  induction xs generalizing s with
  | nil => rfl
  | cons b rest ih => simp [rxAll, ih]

theorem rxAll_outside (bytes : List Byte) (s : State) : SameOutsideReceiver s (rxAll bytes s) := by
  induction bytes generalizing s with
  | nil => constructor <;> rfl
  | cons b rest ih =>
    have h1 := rxByte_outside b s
    have h2 := ih (rxByte b s).state
    exact ⟨h2.cfg.trans h1.cfg, h2.ownAddr.trans h1.ownAddr, h2.bcastAddr.trans h1.bcastAddr, h2.txf.trans h1.txf,
      h2.txOut.trans h1.txOut, h2.resOut.trans h1.resOut, h2.pending.trans h1.pending, h2.epoch.trans h1.epoch⟩

theorem rxAll_inside (bytes : List Byte) (s : State) (h : s.widx < s.cfg.cap) :
    (rxAll bytes s).widx < (rxAll bytes s).cfg.cap := by
  induction bytes generalizing s with
  | nil => exact h
  | cons b rest ih => exact ih _ (rxByte_inside b s h)

theorem execFeedBuf_eq (bytes : List Byte) (s : State) (h : s.widx < s.cfg.cap) :
    execFeedBuf bytes s = .next (rxAll bytes s) := by
  induction bytes generalizing s with
  | nil => rfl
  | cons b rest ih =>
    simp only [execFeedBuf, feedOne, State.guardBuf_next _ _ h]
    exact ih _ (rxByte_inside b s h)

theorem feedEach_eq (bytes : List Byte) (s : State) (h : s.widx < s.cfg.cap) :
    feedEach bytes s = .next (rxAll bytes s) := by
  induction bytes generalizing s with
  | nil => rfl
  | cons b rest ih =>
    simp only [feedEach, exec, execFeedByte, feedOne, State.guardBuf_next _ _ h]
    exact ih _ (rxByte_inside b s h)

/-- The one way feeding a buffer answers a next state. -/
theorem execFeedBuf_eq_next (bytes : List Byte) (s t : State) (h : execFeedBuf bytes s = .next t) :
    t = rxAll bytes s ∧ (bytes = [] ∨ s.widx < s.cfg.cap) := by
  cases bytes with
  | nil => exact ⟨by injection h with h; exact h.symm, .inl rfl⟩
  | cons b rest =>
    by_cases hw : s.widx < s.cfg.cap
    · rw [execFeedBuf_eq _ _ hw] at h
      exact ⟨by injection h with h; exact h.symm, .inr hw⟩
    · simp [execFeedBuf, feedOne, State.guardBuf, hw] at h

end Sys2Proof.Machine
end

