-- ==== Sys2Proof/Laws/Bytes.lean ====
section
/-! SUPPORT. The laws of bytes, half-words and command words: the big-endian combine and its two halves, and the fields
of a command word. -/

namespace Sys2Proof

/-! ### The fields of a command word -/

@[simp] theorem opField_cmdWord (op : BitVec 3) (pv : BitVec 1) (a b : Byte) (n : Half) :
    opField (cmdWord op pv a b n) = op := by
  unfold opField cmdWord
  ext i hi
  rw [BitVec.getElem_extractLsb']
  simp only [BitVec.getLsbD_append]
  interval_cases i <;> simp

@[simp] theorem pvField_cmdWord (op : BitVec 3) (pv : BitVec 1) (a b : Byte) (n : Half) :
    pvField (cmdWord op pv a b n) = pv := by
  unfold pvField cmdWord
  ext i hi
  rw [BitVec.getElem_extractLsb']
  simp only [BitVec.getLsbD_append]
  interval_cases i
  simp

@[simp] theorem aField_cmdWord (op : BitVec 3) (pv : BitVec 1) (a b : Byte) (n : Half) :
    aField (cmdWord op pv a b n) = a := by
  unfold aField cmdWord
  ext i hi
  rw [BitVec.getElem_extractLsb']
  simp only [BitVec.getLsbD_append]
  interval_cases i <;> simp

@[simp] theorem bField_cmdWord (op : BitVec 3) (pv : BitVec 1) (a b : Byte) (n : Half) :
    bField (cmdWord op pv a b n) = b := by
  unfold bField cmdWord
  ext i hi
  rw [BitVec.getElem_extractLsb']
  simp only [BitVec.getLsbD_append]
  interval_cases i <;> simp

@[simp] theorem nField_cmdWord (op : BitVec 3) (pv : BitVec 1) (a b : Byte) (n : Half) :
    nField (cmdWord op pv a b n) = n := by
  unfold nField cmdWord
  ext i hi
  rw [BitVec.getElem_extractLsb']
  simp only [BitVec.getLsbD_append]
  interval_cases i <;> simp

namespace Machine

/-! ### Half-words -/

@[simp] theorem hiByte_be16 (h l : Byte) : hiByte (be16 h l) = h := by
  unfold hiByte be16
  ext i hi
  rw [BitVec.getElem_extractLsb']
  simp only [BitVec.getLsbD_append]
  interval_cases i <;> simp

@[simp] theorem loByte_be16 (h l : Byte) : loByte (be16 h l) = l := by
  unfold loByte be16
  ext i hi
  rw [BitVec.getElem_extractLsb']
  simp only [BitVec.getLsbD_append]
  interval_cases i <;> simp

@[simp] theorem be16_hiByte_loByte (v : Half) : be16 (hiByte v) (loByte v) = v := by
  unfold hiByte loByte be16
  ext i hi
  rw [BitVec.getElem_append]
  split
  · rename_i h
    interval_cases i <;> simp
  · rename_i h
    have h8 : 8 ≤ i := by omega
    interval_cases i <;> simp

/-- The combine says nothing less than its two bytes. -/
theorem be16_inj (h l h' l' : Byte) (e : be16 h l = be16 h' l') : h = h' ∧ l = l' := by
  constructor
  · simpa using congrArg hiByte e
  · simpa using congrArg loByte e

theorem crcField_be16 (h l : Byte) : crcField (be16 h l) = [h, l] := by simp [crcField]

/-! ### The CRC fold -/

theorem crcFrom_append (c : Half) (xs ys : List Byte) : crcFrom c (xs ++ ys) = crcFrom (crcFrom c xs) ys := by
  induction xs generalizing c with
  | nil => rfl
  | cons b rest ih => simp [crcFrom, ih]

/-! ### Frames -/

@[simp] theorem frameBody_length (cfg : Config) (src tgt type : Byte) (payload : List Byte) :
    (frameBody cfg src tgt type payload).length = 8 + payload.length := by
  simp [frameBody]; omega

@[simp] theorem wireFrame_length (cfg : Config) (src tgt type : Byte) (payload : List Byte) :
    (wireFrame cfg src tgt type payload).length = 10 + payload.length := by
  simp [wireFrame, crcField]; omega

end Machine

end Sys2Proof
end

