-- ==== Sys2Proof/Laws/Receiver.lean ====
section
/-! SUPPORT. The spec lemmas of the receiver and of the outcomes of operations: what an append, a drop, the last byte of a
frame and a stop are, said once. -/

namespace Sys2Proof

theorem Config.wf_bounds {c : Config} (h : c.wf = true) : c.maxPayload ≤ 65535 ∧ 11 + c.maxPayload ≤ c.cap := by
  simpa [Config.wf] using h

namespace Machine

/-- Below the invariant's position there is always room for one more byte. -/
theorem State.Inv.room {s : State} (h : s.Inv) : s.widx + 1 < s.cfg.cap := by
  have := Config.wf_bounds h.cfgOk
  rcases h.position with h | h <;> omega

/-! ### Appends and drops -/

theorem State.append_widx_of_room (s : State) (b : Byte) (h : s.widx + 1 < s.cfg.cap) :
    (s.append b).widx = s.widx + 1 := by
  simp [Nat.mod_eq_of_lt h]

theorem State.append_outside (s : State) (b : Byte) : SameOutsideReceiver s (s.append b) := by
  constructor <;> rfl

theorem State.append_sameBufBut (s : State) (b : Byte) : SameBufBut s.widx s (s.append b) :=
  fun j hj => by simp [State.readBuf_append, hj]

theorem State.append_appended (s : State) (b : Byte) (h : s.widx + 1 < s.cfg.cap) : Appended b s (s.append b) :=
  ⟨s.append_outside b, rfl, by simp [State.readBuf_append], s.append_sameBufBut b, s.append_widx_of_room b h⟩

theorem State.rxReset_dropped (s : State) : Dropped s s.rxReset := ⟨by constructor <;> rfl, rfl, rfl, rfl⟩

theorem State.append_rxReset_dropped (s : State) (b : Byte) : Dropped s (s.append b).rxReset :=
  ⟨by constructor <;> rfl, rfl, rfl, rfl⟩

/-! ### The length-low position -/

theorem State.latched_dlen (s : State) (b : Byte) (h : s.widx = 7) :
    (s.append b).latchLength.dlen = be16 (s.readBuf 6) b := by
  simp [State.readBuf16, State.readBuf_append, h]

/-! ### The accumulation phase -/

theorem rxByte_of_ge (b : Byte) (s : State) (h8 : 8 ≤ s.widx) : rxByte b s = rxAcc b s := by
  simp [rxByte, positionOf_of_ge _ h8]

/-- A byte that leaves the frame incomplete is appended. -/
theorem rxAcc_incomplete (b : Byte) (s : State) (h : s.widx + 1 < 10 + s.dlen.toNat) :
    rxAcc b s = (s.append b).accept := by
  rw [rxAcc, State.checkComplete, if_neg, if_neg] <;> rw [State.append_dlen] <;> omega

/-- A byte that completes the frame starts validation. -/
theorem rxAcc_complete (b : Byte) (s : State) (h : s.widx = 9 + s.dlen.toNat) :
    rxAcc b s = (s.append b).validate := by
  rw [rxAcc, State.checkComplete, if_pos]
  rw [State.append_dlen]
  omega

/-- A byte that takes the count past the frame size drops (42_frame_receiver.md R108). -/
theorem rxAcc_past (b : Byte) (s : State) (h : 10 + s.dlen.toNat ≤ s.widx) :
    rxAcc b s = (s.append b).drop .corruptState := by
  rw [rxAcc, State.checkComplete, if_neg, if_pos] <;> rw [State.append_dlen] <;> omega

/-- What validation can do, and when (42_frame_receiver.md R102). -/
theorem State.validate_cases (s : State) :
    (s.crcIndexOutside = true ∧ s.validate = s.drop .crcIndexOutOfRange) ∨
    (s.crcIndexOutside = false ∧ s.expectedCrc ≠ s.receivedCrc ∧ s.validate = s.drop .crcMismatch) ∨
    (s.crcIndexOutside = false ∧ s.expectedCrc = s.receivedCrc ∧ s.addressMatches = false ∧
      s.validate = s.drop .addressMismatch) ∨
    (s.crcIndexOutside = false ∧ s.expectedCrc = s.receivedCrc ∧ s.addressMatches = true ∧
      s.validate = s.deliverFrame.accept) := by
  unfold State.validate
  cases s.crcIndexOutside <;> cases s.addressMatches <;> by_cases h : s.expectedCrc = s.receivedCrc <;> simp [h]

/-- The tests of validation at the last byte of a frame, in terms of the state before it. -/
theorem State.append_last (s : State) (b : Byte) (h8 : 8 ≤ s.widx) (hw : s.widx = 9 + s.dlen.toNat)
    (hroom : s.widx < s.cfg.cap) :
    (s.append b).crcIndexOutside = false ∧
    (s.append b).expectedCrc = crc16 (s.bufPrefix (8 + s.dlen.toNat)) ∧
    (s.append b).receivedCrc = be16 (s.readBuf (8 + s.dlen.toNat)) b ∧
    (s.append b).addressMatches = (s.readBuf 4 == s.ownAddr || s.readBuf 4 == s.bcastAddr) ∧
    (s.append b).bufPrefix (10 + s.dlen.toNat) = s.bufPrefix (9 + s.dlen.toNat) ++ [b] := by
  refine ⟨?_, ?_, ?_, ?_, ?_⟩
  · simp [State.crcIndexOutside]; omega
  · simp only [State.expectedCrc, State.append_dlen]
    rw [State.bufPrefix_congr s]
    intro i hi
    rw [State.readBuf_append, if_neg (by omega)]
  · simp only [State.receivedCrc, State.append_dlen, State.readBuf16]
    rw [State.readBuf_append, State.readBuf_append, if_neg (by omega), if_pos (by omega)]
  · simp only [State.addressMatches, State.readBuf_append]
    rw [if_neg (by omega)]
    rfl
  · have h := State.bufPrefix_append s b
    rw [hw] at h
    rw [← h]
    congr 1
    omega

/-! ### Stops -/

theorem State.guardBuf_not_refused (s t : State) (r : Refusal) : s.guardBuf t ≠ .refused r := by
  unfold State.guardBuf
  split <;> simp

theorem State.guardBuf_fault (s t : State) (f : Fault) (h : s.guardBuf t = .fault f) : s.cfg.cap ≤ s.widx := by
  unfold State.guardBuf at h
  split at h
  · cases h
  · omega

theorem State.atPosition_refused (s t : State) (p : Position) (r : Refusal) (h : s.atPosition p t = .refused r) :
    r = .positionMismatch s.widx ∧ positionOf s.widx ≠ p := by
  unfold State.atPosition at h
  split at h
  · exact absurd h (State.guardBuf_not_refused _ _ _)
  · injection h with h
    exact ⟨h.symm, by assumption⟩

theorem execFeedBuf_not_refused (data : List Byte) (s : State) (r : Refusal) : execFeedBuf data s ≠ .refused r := by
  by_cases hw : s.widx < s.cfg.cap
  · rw [execFeedBuf_eq _ _ hw]
    simp
  · cases data with
    | nil => simp [execFeedBuf]
    | cons b rest => simp [execFeedBuf, feedOne, State.guardBuf, hw]

/-! ### The serializer -/

/-- The body of a frame built in `txf`, read back. -/
theorem State.txPrefix_buildBody (s : State) (dest type : Byte) (n : Half) (p : List Byte) (hn : n.toNat = p.length) :
    (s.buildBody dest type n p).txPrefix (8 + n.toNat) = frameBody s.cfg s.ownAddr dest type p := by
  rw [hn, State.buildBody, State.txPrefix_txWriteAll]
  have hlen : n = BitVec.ofNat 16 p.length := by rw [← hn]; simp
  rw [frameBody, ← hlen]
  congr 1
  simp [State.txPrefix, List.range_succ, State.readTx_txWrite]

/-- The whole frame built in `txf`, read back, is the wire frame (30_encoding.md R50 to R53). -/
theorem State.txPrefix_frame (s : State) (dest type : Byte) (n : Half) (p : List Byte) (hn : n.toNat = p.length) :
    ((s.buildBody dest type n p).appendCrc n).txPrefix (10 + n.toNat) =
      wireFrame s.cfg s.ownAddr dest type p := by
  rw [wireFrame, ← State.txPrefix_buildBody s dest type n p hn]
  generalize s.buildBody dest type n p = u
  rw [show 10 + n.toNat = 8 + n.toNat + 1 + 1 by omega, State.txPrefix_succ, State.txPrefix_succ]
  simp only [State.appendCrc, crcField]
  simp only [State.readTx_txWrite, show 8 + n.toNat + 1 = 9 + n.toNat by omega, show 8 + n.toNat ≠ 9 + n.toNat by omega,
    if_true, if_false, List.append_assoc, List.cons_append, List.nil_append]
  congr 1
  exact State.txPrefix_congr _ _ _ fun i hi => by
    simp [State.readTx_txWrite, show i ≠ 8 + n.toNat by omega, show i ≠ 9 + n.toNat by omega]

/-- What a `SEND` that answers a next state did: one of its two errors, or the frame built and transmitted. -/
theorem execSend_eq_next (dest type : Byte) (n : Half) (p : Option (List Byte)) (s t : State)
    (h : execSend dest type n p s = .next t) :
    t = s.giveResult (.send .illegalLength) ∨ t = s.giveResult (.send .nullPayload) ∨
    (n.toNat ≤ s.cfg.maxPayload ∧ n.toNat = (payloadRead n p).length ∧
      t = (s.buildAndTransmit dest type n (payloadRead n p)).giveResult (.send .ok)) := by
  unfold execSend at h
  split at h
  · exact .inl (by injection h with h; exact h.symm)
  · exact .inr (.inl (by injection h with h; exact h.symm))
  · rename_i hc
    split at h
    · rename_i hl
      refine .inr (.inr ⟨?_, ?_, by injection h with h; exact h.symm⟩)
      · by_contra hn
        rw [sendCheck, if_pos (by omega)] at hc
        cases hc
      · have : n.toNat ≤ (payloadBytes p).length := by simpa [payloadLongEnough] using hl
        simp [payloadRead, this]
    · cases h

end Machine

end Sys2Proof
end

