-- ==== Sys2Proof/Laws/Exec.lean ====
section
/-! SUPPORT. What an operation and a step can do, said once: the inversion lemmas of `exec` and `step`. -/

namespace Sys2Proof.Machine

/-- A receiver transition that answers a next state ran at its position, and did what the byte does there. -/
theorem exec_selected (i : Instr) (p : Position) (hp : i.selector = some p) (s t : State) (h : exec i s = .next t) :
    ∃ b, i = decodePosition p b ∧ positionOf s.widx = p ∧ s.widx < s.cfg.cap ∧ t = (rxByte b s).state := by
  cases i <;> simp only [Instr.selector, reduceCtorEq, Option.some.injEq] at hp <;> subst hp <;> simp only [exec] at h <;>
    obtain ⟨h1, h2, h3⟩ := State.atPosition_eq_next _ _ _ _ h <;>
    exact ⟨_, rfl, h1, h2, by rw [h3]; simp [rxByte, h1]⟩

/-- What an operation that answers a next state did. -/
inductive ExecCases (i : Instr) (s t : State) : Prop where
  | setOwn (a : Byte) (hi : i = .setOwn a) (ht : t = { s with ownAddr := a })
  | setBcast (a : Byte) (hi : i = .setBcast a) (ht : t = { s with bcastAddr := a })
  | fedByte (b : Byte) (hi : i = .feedByte b ∨ i = decodePosition (positionOf s.widx) b) (hw : s.widx < s.cfg.cap)
      (ht : t = (rxByte b s).state)
  | fedBuf (data : List Byte) (hi : i = .feedBuf data) (hw : data = [] ∨ s.widx < s.cfg.cap) (ht : t = rxAll data s)
  | sent (dest type : Byte) (n : Half) (p : Option (List Byte)) (hi : i = .send dest type n p)
      (ht : t = s.giveResult (.send .illegalLength) ∨ t = s.giveResult (.send .nullPayload) ∨
        (n.toNat ≤ s.cfg.maxPayload ∧ n.toNat = (payloadRead n p).length ∧
          t = (s.buildAndTransmit dest type n (payloadRead n p)).giveResult (.send .ok)))
  | summed (data : List Byte) (hi : i = .crc16 data) (ht : t = s.giveResult (.crc16 (crc16 data)))

theorem exec_cases (i : Instr) (s t : State) (h : exec i s = .next t) : ExecCases i s t := by
  cases hs : i.selector with
  | some p =>
    obtain ⟨b, hi, hp, hw, ht⟩ := exec_selected i p hs s t h
    subst hp
    exact .fedByte b (.inr hi) hw ht
  | none =>
    cases i <;> simp only [Instr.selector, reduceCtorEq] at hs <;> simp only [exec] at h
    case setOwn a => cases h; exact .setOwn a rfl rfl
    case setBcast a => cases h; exact .setBcast a rfl rfl
    case feedByte b =>
      obtain ⟨hw, ht⟩ := State.guardBuf_eq_next _ _ _ h
      exact .fedByte b (.inl rfl) hw ht
    case feedBuf data =>
      obtain ⟨ht, hw⟩ := execFeedBuf_eq_next _ _ _ h
      exact .fedBuf data rfl hw ht
    case send dest type n p => exact .sent dest type n p rfl (execSend_eq_next _ _ _ _ _ _ h)
    case crc16 data => cases h; exact .summed data rfl rfl
    case reservedOp0 => cases h
    case reservedOp7 => cases h

/-- What a step that answers a next state did. -/
inductive StepCases (s t : State) : Prop where
  | idle (hp : s.pending = []) (ht : t = s)
  | reset (rest : List Input) (hp : s.pending = .hwReset :: rest)
      (ht : t = ({ s with pending := rest } : State).hardwareReset)
  | ran (e : Encoded) (rest : List Input) (i : Instr) (hp : s.pending = .op e :: rest) (hd : decode s.widx e = .ok i)
      (ht : exec i { s with pending := rest } = .next t)

theorem step_cases (s t : State) (h : step s = .next t) : s.cfg.wf = true ∧ StepCases s t := by
  unfold step at h
  split at h
  · refine ⟨by assumption, ?_⟩
    split at h
    · rename_i hp
      cases h
      exact .idle hp rfl
    · rename_i rest hp
      cases h
      exact .reset rest hp rfl
    · rename_i e rest hp
      split at h
      · cases h
      · rename_i i hd
        exact .ran e rest i hp hd h
  · cases h

end Sys2Proof.Machine
end

