-- ==== Sys2Proof/Laws/PerInstr.lean ====
section
/-! SUPPORT. The family `TableRow`: the encoded form of every operation matches its row of spec/opcode_table.json, one lemma
per constructor. -/

namespace Sys2Proof.Laws.TableRow

/-- The `mask` of every row of format CMD36 (30_encoding.md R57). -/
def rowMask : CmdWord := 0xE00000000#36

/-- The `match` of a row of format CMD36 (30_encoding.md R57); `none` for a row of format RXPOS, which has no fixed
bit. -/
def rowMatch : Instr → Option CmdWord
  | .setOwn _ => some 0x200000000#36
  | .setBcast _ => some 0x400000000#36
  | .feedByte _ => some 0x600000000#36
  | .feedBuf _ => some 0x800000000#36
  | .send _ _ _ _ => some 0xA00000000#36
  | .crc16 _ => some 0xC00000000#36
  | .reservedOp0 => some 0x000000000#36
  | .reservedOp7 => some 0xE00000000#36
  | .rxP0 _ => none
  | .rxP1 _ => none
  | .rxP2 _ => none
  | .rxSrc _ => none
  | .rxTgt _ => none
  | .rxType _ => none
  | .rxLenH _ => none
  | .rxLenL _ => none
  | .rxAcc _ => none

/-- An encoded form matches a row: a command word under the mask is the row's match; a byte alone has none. -/
def Matches (row : Option CmdWord) : Encoded → Prop
  | .cmd w _ => row = some (w &&& rowMask)
  | .rxByte _ => row = none

/-- The encoded form of an operation matches its row of the opcode table. -/
def Statement (i : Instr) : Prop := Matches (rowMatch i) (encode i)

/-- Under the mask only the operation code is left. -/
theorem cmdWord_and_rowMask (op : BitVec 3) (pv : BitVec 1) (a b : Byte) (n : Half) :
    cmdWord op pv a b n &&& rowMask = cmdWord op 0 0 0 0 := by
  have hmask : rowMask = cmdWord 7 0 0 0 0 := rfl
  have hop : op &&& 7#3 = op := BitVec.and_allOnes (x := op)
  rw [hmask]
  unfold cmdWord
  rw [BitVec.and_append, BitVec.and_append, BitVec.and_append, BitVec.and_append]
  simp [hop]

theorem setOwn (a : Byte) : Statement (.setOwn a) := by
  simp only [Statement, encode, Matches, cmdWord_and_rowMask]; rfl
theorem setBcast (a : Byte) : Statement (.setBcast a) := by
  simp only [Statement, encode, Matches, cmdWord_and_rowMask]; rfl
theorem feedByte (b : Byte) : Statement (.feedByte b) := by
  simp only [Statement, encode, Matches, cmdWord_and_rowMask]; rfl
theorem feedBuf (data : List Byte) : Statement (.feedBuf data) := by
  simp only [Statement, encode, Matches, cmdWord_and_rowMask]; rfl
theorem send (dest type : Byte) (n : Half) (payload : Option (List Byte)) : Statement (.send dest type n payload) := by
  cases payload <;> simp only [Statement, encode, Matches, cmdWord_and_rowMask] <;> rfl
theorem crc16 (data : List Byte) : Statement (.crc16 data) := by
  simp only [Statement, encode, Matches, cmdWord_and_rowMask]; rfl
theorem reservedOp0 : Statement .reservedOp0 := rfl
theorem reservedOp7 : Statement .reservedOp7 := rfl
theorem rxP0 (b : Byte) : Statement (.rxP0 b) := rfl
theorem rxP1 (b : Byte) : Statement (.rxP1 b) := rfl
theorem rxP2 (b : Byte) : Statement (.rxP2 b) := rfl
theorem rxSrc (b : Byte) : Statement (.rxSrc b) := rfl
theorem rxTgt (b : Byte) : Statement (.rxTgt b) := rfl
theorem rxType (b : Byte) : Statement (.rxType b) := rfl
theorem rxLenH (b : Byte) : Statement (.rxLenH b) := rfl
theorem rxLenL (b : Byte) : Statement (.rxLenL b) := rfl
theorem rxAcc (b : Byte) : Statement (.rxAcc b) := rfl

end Sys2Proof.Laws.TableRow
end

