-- ==== Sys2Proof/Tests/Slice0.lean ====
section
/-! SUPPORT. The model's own tests. The expected values are the ones written out in spec/95_test_vectors.md (its vector
or program is named), or the encoding tables of spec/30_encoding.md and spec/opcode_table.json. Then, for every statement
with hypotheses, a concrete state and operands that meet all of them together. -/

set_option Elab.async false

namespace Sys2Proof.Tests

open Sys2Proof.Machine

/-! ### Helpers -/

/-- What a field of the next state is, if there is a next state. -/
def after {α : Type} (o : Host.Outcome State Fault Refusal) (f : State → α) : Option α :=
  match o with
  | .next s => some (f s)
  | .fault _ => none
  | .refused _ => none

/-- The refusal, if it is one. -/
def refusalOf (o : Host.Outcome State Fault Refusal) : Option Refusal :=
  match o with
  | .next _ => none
  | .fault _ => none
  | .refused r => some r

/-- The fault, if it is one. -/
def faultOf (o : Host.Outcome State Fault Refusal) : Option Fault :=
  match o with
  | .next _ => none
  | .fault f => some f
  | .refused _ => none

/-- A receiver that has accumulated `bytes`, in a node with own address 02, broadcast address 00 and parameters TC-A. -/
def receiving (bytes : List Byte) (dlen : Half) : State :=
  { State.reset with
    buf := bytes.zipIdx.map (fun p => (p.2, p.1))
    widx := bytes.length
    dlen := dlen
    ownAddr := 0x02 }

/-- Parameters TC-C. -/
def configTcC : Config := { configTcA with maxPayload := 300, cap := 620 }

def frame0 : List Byte := [0xAA, 0x55, 0xC3, 0xEE, 0x00, 0x01, 0x00, 0x00, 0xED, 0x67]

def frame1 : List Byte := [0xAA, 0x55, 0xC3, 0x01, 0x02, 0x10, 0x00, 0x01, 0x7F, 0xF9, 0x86]

/-- All of F1 but its last byte. -/
def frame1Head : List Byte := [0xAA, 0x55, 0xC3, 0x01, 0x02, 0x10, 0x00, 0x01, 0x7F, 0xF9]

/-- The last byte of F1 is still to come. -/
def beforeLast : State := receiving frame1Head 1

def node (own : Byte) : State := { State.reset with ownAddr := own }

/-! ### WellFormed: each check refuses an ill-formed term -/

theorem test_wf_refuses_long_feedBuf : (Instr.feedBuf (List.replicate 65536 0)).wf = false := by
  rw [Instr.wf, List.length_replicate]
  rfl

theorem test_wf_refuses_long_crc16 : (Instr.crc16 (List.replicate 65536 0)).wf = false := by
  rw [Instr.wf, List.length_replicate]
  rfl

theorem test_wf_accepts_longest_feedBuf : (Instr.feedBuf (List.replicate 65535 0)).wf = true := by
  rw [Instr.wf, List.length_replicate]
  rfl

theorem test_config_refuses_small_cap : ({ configTcA with cap := 26 } : Config).wf = false := by decide

theorem test_config_accepts_least_cap : ({ configTcA with cap := 27 } : Config).wf = true := by decide

theorem test_config_refuses_large_payload : ({ configTcA with maxPayload := 65536, cap := 70000 } : Config).wf = false := by
  decide

/-! ### Decode: words written out from the encoding tables -/

/-- R56: op 001, p, a = 1110_1110; the ignored fields p, b and n all ones. -/
theorem test_decode_setOwn :
    decode 3 (.cmd 0b001_1_11101110_11111111_1111111111111111#36 []) = .ok (.setOwn 0xEE) := by decide

theorem test_decode_setBcast :
    decode 0 (.cmd 0b010_0_11111111_00000000_0000000000000000#36 []) = .ok (.setBcast 0xFF) := by decide

theorem test_decode_feedByte :
    decode 0 (.cmd 0b011_0_00110111_00000000_0000000000000000#36 []) = .ok (.feedByte 0x37) := by decide

theorem test_decode_feedBuf :
    decode 6 (.cmd 0b100_0_00000000_00000000_0000000000000100#36 [0x00, 0x00, 0x0D, 0x02]) =
      .ok (.feedBuf [0x00, 0x00, 0x0D, 0x02]) := by decide

/-- V-TX-08: the operand may be longer than n. -/
theorem test_decode_send_with_payload :
    decode 0 (.cmd 0b101_1_00000010_00010000_0000000000000010#36 [0x01, 0x02, 0x03]) =
      .ok (.send 0x02 0x10 2 (some [0x01, 0x02, 0x03])) := by decide

/-- V-TX-06. -/
theorem test_decode_send_without_payload :
    decode 0 (.cmd 0b101_0_00000010_00010000_0000000000010001#36 []) = .ok (.send 0x02 0x10 17 none) := by decide

theorem test_decode_crc16 :
    decode 0 (.cmd 0b110_0_00000000_00000000_0000000000000011#36 [0x31, 0x32, 0x33]) = .ok (.crc16 [0x31, 0x32, 0x33]) := by
  decide

theorem test_decode_reservedOp0 :
    decode 0 (.cmd 0b000_1_10000001_01111110_1000000000000001#36 []) = .ok .reservedOp0 := by decide

theorem test_decode_reservedOp7 :
    decode 0 (.cmd 0b111_0_00000000_00000000_0000000000000000#36 []) = .ok .reservedOp7 := by decide

/-- 30_encoding.md R61: the position alone selects the transition. -/
theorem test_decode_positions :
    (List.range 11).map (fun w => (decode w (.rxByte 0xAA)).toOption) =
      [some (.rxP0 0xAA), some (.rxP1 0xAA), some (.rxP2 0xAA), some (.rxSrc 0xAA), some (.rxTgt 0xAA),
        some (.rxType 0xAA), some (.rxLenH 0xAA), some (.rxLenL 0xAA), some (.rxAcc 0xAA), some (.rxAcc 0xAA),
        some (.rxAcc 0xAA)] := by decide

theorem test_decode_rejects_wrong_data_length :
    decode 0 (.cmd 0x800000004#36 [0x00]) = .error .dataLengthMismatch := by decide

theorem test_decode_rejects_unexpected_data :
    decode 0 (.cmd 0x2EE000000#36 [0x00]) = .error .unexpectedData := by decide

/-- The encoder writes the words of programs P1 and P5. -/
theorem test_encode_words :
    encode (.setOwn 0xEE) = .cmd 0x2EE000000#36 [] ∧
    encode (.setBcast 0xFF) = .cmd 0x4FF000000#36 [] ∧
    encode (.feedByte 0x37) = .cmd 0x637000000#36 [] ∧
    encode (.feedBuf frame0) = .cmd 0x80000000A#36 frame0 ∧
    encode (.send 0x02 0xFF 16 (some [])) = .cmd 0xB02FF0010#36 [] ∧
    encode (.send 0x00 0x01 0 none) = .cmd 0xA00010000#36 [] ∧
    encode (.crc16 []) = .cmd 0xC00000000#36 [] := by decide

/-! ### Table words and the fetch -/

theorem test_decodeTableWord_rows :
    decodeTableWord 40 0x2EE000000 = some (.setOwn 0xEE) ∧
    decodeTableWord 40 0xB02100002 = some (.send 0x02 0x10 2 (some [0x00, 0x00])) ∧
    decodeTableWord 40 0xE00000000 = some .reservedOp7 ∧
    decodeTableWord 8 0x37 = some (.rxP0 0x37) := by decide

theorem test_step_runs_fetched_word :
    after (step (State.reset.withFetchWord 40 0x2EE000000)) (fun s => (s.ownAddr, s.bcastAddr, s.pending)) =
      some (0xEE, 0x00, []) := by decide

theorem test_step_refuses_fetched_reserved_word :
    refusalOf (step (State.reset.withFetchWord 40 0x000000000)) = some (.reservedOpcode 0) := by decide

theorem test_step_refuses_bad_operand :
    refusalOf (step { State.reset with pending := [.op (.cmd 0x800000004#36 [])] }) =
      some (.badDataOperand .dataLengthMismatch) := by decide

/-- V-RST-01. -/
theorem test_step_hardware_reset :
    after (step { beforeLast with rxOut := [frame0], pending := [.hwReset] })
      (fun s => (s.widx, s.dlen, s.ownAddr, s.bcastAddr, s.rxOut)) = some (0, 0, 0x00, 0x00, []) := by decide

/-! ### CRC-16 (95_test_vectors.md section 2.1) -/

/-- V-STEP-01 and V-STEP-03. -/
theorem test_crcStep : crcStep 0xFFFF#16 0x01 = 0x807E#16 ∧ crcStep 0x0000#16 0x01 = 0xC0C1#16 := by decide +kernel

/-- V-CRC-01, V-CRC-05, V-CRC-07, V-CRC-09, V-CRC-11. -/
theorem test_crc16_values :
    crc16 [] = 0xFFFF#16 ∧ crc16 [0xAA] = 0x3F3F#16 ∧ crc16 [0xFF, 0xFF] = 0x0000#16 ∧
    crc16 [0x31, 0x32, 0x33, 0x34, 0x35, 0x36, 0x37, 0x38, 0x39] = 0x4B37#16 ∧
    crc16 [0xAA, 0x55, 0xC3, 0xEE, 0x00, 0x01, 0x00, 0x00] = 0xED67#16 := by decide +kernel

/-- V-CRC-12 and V-CRC-13. -/
theorem test_crc16_residue :
    crc16 [0x31, 0x32, 0x33, 0x34, 0x35, 0x36, 0x37, 0x38, 0x39, 0x37, 0x4B] = 0x0000#16 ∧
    crc16 [0x31, 0x32, 0x33, 0x34, 0x35, 0x36, 0x37, 0x38, 0x39, 0x4B, 0x37] = 0x2121#16 := by decide +kernel

/-- V-CRC-08, as the command. -/
theorem test_exec_crc16 :
    after (exec (.crc16 [0x31, 0x32, 0x33]) beforeLast) (fun s => (s.resOut, s.widx, s.rxOut)) =
      some ([.crc16 0x7A75#16], 10, []) := by decide +kernel

/-! ### Addressing configuration (section 2.5) -/

/-- V-CFG-02, V-CFG-06. -/
theorem test_exec_setOwn : exec (.setOwn 0x55) beforeLast = .next { beforeLast with ownAddr := 0x55 } := by rfl

/-- V-CFG-03. -/
theorem test_exec_setBcast : exec (.setBcast 0xFF) beforeLast = .next { beforeLast with bcastAddr := 0xFF } := by rfl

/-! ### SEND (section 2.2) -/

/-- V-TX-01: frame F0. -/
theorem test_send_F0 :
    after (exec (.send 0x00 0x01 0 none) (node 0xEE)) (fun s => (s.txOut, s.resOut, s.rxOut, s.widx)) =
      some ([frame0], [.send .ok], [], 0) := by decide +kernel

/-- V-TX-08: the third listed byte is not read. -/
theorem test_send_longer_operand :
    after (exec (.send 0x02 0x10 2 (some [0x01, 0x02, 0x03])) (node 0x01)) (fun s => s.txOut) =
      some [[0xAA, 0x55, 0xC3, 0x01, 0x02, 0x10, 0x00, 0x02, 0x01, 0x02, 0xC3, 0x28]] := by decide +kernel

/-- V-TX-06 and V-TX-07: the two errors; nothing is transmitted. -/
theorem test_send_errors :
    after (exec (.send 0x02 0x10 17 none) (node 0x01)) (fun s => (s.resOut, s.txOut)) = some ([.send .illegalLength], []) ∧
    after (exec (.send 0x02 0x10 1 none) (node 0x01)) (fun s => (s.resOut, s.txOut)) = some ([.send .nullPayload], []) := by
  decide +kernel

/-- 30_encoding.md R59, 92 D26: no such operand exists. -/
theorem test_send_short_operand :
    refusalOf (exec (.send 0x02 0x10 2 (some [0x01])) (node 0x01)) = some .dataOperandShort := by decide +kernel

/-! ### Reserved operation codes (30_encoding.md R58) -/

theorem test_exec_reserved :
    refusalOf (exec .reservedOp0 beforeLast) = some (.reservedOpcode 0) ∧
    refusalOf (exec .reservedOp7 beforeLast) = some (.reservedOpcode 7) := by decide

/-! ### The receiver, position by position (section 2.3) -/

/-- V-P-01 and V-P-02. -/
theorem test_rxP0 :
    after (exec (.rxP0 0x37) (receiving [] 0)) (fun s => s.widx) = some 0 ∧
    after (exec (.rxP0 0xAA) (receiving [] 0)) (fun s => (s.widx, s.buf)) = some (1, [(0, 0xAA)]) := by decide

/-- V-P-03 and V-P-04. -/
theorem test_rxP1 :
    after (exec (.rxP1 0xAA) (receiving [0xAA] 0)) (fun s => (s.widx, s.buf)) = some (0, [(0, 0xAA)]) ∧
    after (exec (.rxP1 0x55) (receiving [0xAA] 0)) (fun s => s.widx) = some 2 := by decide

/-- V-P-05 and V-P-06. -/
theorem test_rxP2 :
    after (exec (.rxP2 0x55) (receiving [0xAA, 0x55] 0)) (fun s => s.widx) = some 0 ∧
    after (exec (.rxP2 0xC3) (receiving [0xAA, 0x55] 0)) (fun s => s.widx) = some 3 := by decide

/-- V-P-07. -/
theorem test_rxSrc :
    after (exec (.rxSrc 0xAA) (receiving [0xAA, 0x55, 0xC3] 0)) (fun s => (s.widx, s.buf)) =
      some (4, [(0, 0xAA), (1, 0x55), (2, 0xC3), (3, 0xAA)]) := by decide

/-- V-RX-01: not compared here. -/
theorem test_rxTgt :
    after (exec (.rxTgt 0x77) (receiving [0xAA, 0x55, 0xC3, 0x01] 0)) (fun s => s.widx) = some 5 := by decide

theorem test_rxType :
    after (exec (.rxType 0x10) (receiving [0xAA, 0x55, 0xC3, 0x01, 0x02] 0)) (fun s => s.widx) = some 6 := by decide

/-- V-RX-01: `dlen` is not written. -/
theorem test_rxLenH :
    after (exec (.rxLenH 0xFF) (receiving [0xAA, 0x55, 0xC3, 0x01, 0x02, 0x10] 0)) (fun s => (s.widx, s.dlen)) =
      some (7, 0) := by decide

/-- V-L-02 and V-L-03. -/
theorem test_rxLenL :
    after (exec (.rxLenL 0x10) (receiving [0xAA, 0x55, 0xC3, 0x01, 0x02, 0x10, 0x00] 0)) (fun s => (s.widx, s.dlen)) =
      some (8, 16) ∧
    after (exec (.rxLenL 0x11) (receiving [0xAA, 0x55, 0xC3, 0x01, 0x02, 0x10, 0x00] 0)) (fun s => (s.widx, s.dlen)) =
      some (0, 0) := by decide +kernel

/-- V-L-06 and V-L-07 (TC-C): the high byte comes first. -/
theorem test_rxLenL_big_endian :
    after (exec (.rxLenL 0x02) { receiving [0xAA, 0x55, 0xC3, 0x01, 0x02, 0x10, 0x01] 0 with cfg := configTcC })
      (fun s => (s.widx, s.dlen)) = some (8, 258) ∧
    after (exec (.rxLenL 0x2D) { receiving [0xAA, 0x55, 0xC3, 0x01, 0x02, 0x10, 0x01] 0 with cfg := configTcC })
      (fun s => (s.widx, s.dlen)) = some (0, 0) := by decide +kernel

/-- V-RX-01, its last byte, and V-RX-16. -/
theorem test_rxAcc_last_byte :
    after (exec (.rxAcc 0x86) beforeLast) (fun s => (s.rxOut, s.widx, s.dlen)) = some ([frame1], 0, 0) ∧
    after (exec (.rxAcc 0xF9) (receiving [0xAA, 0x55, 0xC3, 0x01, 0x02, 0x10, 0x00, 0x01, 0x7F, 0x86] 1))
      (fun s => (s.rxOut, s.widx)) = some ([], 0) := by decide +kernel

/-- V-RX-01, `7F` at index 8; and 93 U7: from every `widx >= 10 + dlen` the next byte gives `drop CorruptState`, at
`CAP - 1` as well. -/
theorem test_rxAcc_count :
    after (exec (.rxAcc 0x7F) (receiving [0xAA, 0x55, 0xC3, 0x01, 0x02, 0x10, 0x00, 0x01] 1))
      (fun s => (s.rxOut, s.widx, s.dlen)) = some ([], 9, 1) ∧
    (rxByte 0x7F { State.reset with widx := 50, dlen := 40 }).cause = some .corruptState ∧
    (rxByte 0x7F { State.reset with widx := 51, dlen := 1 }).cause = some .corruptState ∧
    after (exec (.rxAcc 0x7F) { State.reset with widx := 51, dlen := 1 }) (fun s => (s.widx, s.dlen, s.buf)) =
      some (0, 0, [(51, 0x7F)]) := by decide +kernel

/-- V-CFG-05: the addresses in force at the last byte decide; P5: as broadcast. -/
theorem test_feedByte_address_filter :
    after (exec (.feedByte 0x86) { beforeLast with ownAddr := 0x09 }) (fun s => s.rxOut) = some [] ∧
    after (exec (.feedByte 0x86) { beforeLast with ownAddr := 0x09, bcastAddr := 0x02 }) (fun s => s.rxOut) =
      some [frame1] := by decide +kernel

/-- The cause is ghost data (60_exceptions.md R132, R133): V-L-03, and V-FLIP 4, where the CRC check comes before the
address check. -/
theorem test_drop_causes :
    (rxByte 0x11 (receiving [0xAA, 0x55, 0xC3, 0x01, 0x02, 0x10, 0x00] 0)).cause = some .oversizeLength ∧
    (rxByte 0x67 (receiving [0xAA, 0x55, 0xC3, 0xEE, 0x01, 0x01, 0x00, 0x00, 0xED] 0)).cause = some .crcMismatch ∧
    (rxByte 0x4A (receiving [0xAA, 0x55, 0xC3, 0x01, 0x07, 0x10, 0x00, 0x01, 0x7F, 0xF9] 1)).cause =
      some .addressMismatch := by decide +kernel

/-- V-RX-11: back to back, both delivered in order. -/
theorem test_feedBuf_back_to_back :
    after (exec (.feedBuf (frame1 ++ frame0)) (node 0x02)) (fun s => (s.rxOut, s.widx, s.dlen)) =
      some ([frame1, frame0], 0, 0) := by decide +kernel

/-- V-RX-03 and V-FLIP 7. -/
theorem test_feedBuf_lost_frame :
    after (exec (.feedBuf (0xAA :: frame0)) State.reset) (fun s => (s.rxOut, s.widx)) = some ([], 0) ∧
    after (exec (.feedBuf [0xAA, 0x55, 0xC3, 0xEE, 0x00, 0x01, 0x00, 0x01, 0xED, 0x67]) State.reset)
      (fun s => (s.rxOut, s.widx, s.dlen)) = some ([], 10, 1) := by decide +kernel

/-- 10_state.md R12: no such write index exists. -/
theorem test_feedByte_outside_buffer :
    faultOf (exec (.feedByte 0xAA) { State.reset with widx := 52 }) = some (.bufIndexOutOfRange 52) := by decide

theorem test_rxSrc_at_another_position :
    refusalOf (exec (.rxSrc 0xAA) State.reset) = some (.positionMismatch 0) := by decide

/-! ### Witnesses: hypotheses that a concrete state and operands meet

One theorem for each statement with hypotheses, named after it. -/

theorem witness_HardwareResetInputResetsTheBlock :
    ({ beforeLast with pending := [.hwReset] } : State).cfg.wf = true ∧
    ({ beforeLast with pending := [.hwReset] } : State).pending = .hwReset :: [] := by decide

theorem witness_StepRunsTheDecodedOperation :
    let s : State := { State.reset with pending := [.op (.cmd 0x637000000#36 [])] }
    s.cfg.wf = true ∧ s.pending = .op (.cmd 0x637000000#36 []) :: [] ∧
      decode s.widx (.cmd 0x637000000#36 []) = .ok (.feedByte 0x37) := by decide

theorem witness_StepHoldsTheStateWhenNothingIsPresented :
    State.reset.cfg.wf = true ∧ State.reset.pending = [] := by decide

/-- Both sides of the equivalence, at the boundary: `CAP = 10 + MAX_PAYLOAD` and `CAP = 11 + MAX_PAYLOAD`. -/
theorem witness_ExactlyIllFormedConfigurationsAreRefused :
    refusalOf (step { State.reset with cfg := { configTcA with cap := 26 } }) = some .illFormedConfig ∧
    refusalOf (step { State.reset with cfg := { configTcA with cap := 27 } }) = none := by decide

/-- A reachable state of the invariant with a frame half accumulated. -/
theorem beforeLast_inv : beforeLast.Inv where
  cfgOk := by decide
  storage := ⟨by decide, by decide, by decide, by decide⟩
  position := .inr (by decide)
  accumulated := ⟨by decide, by decide, by decide, by decide, by decide⟩

/-- The invariant holds at reset as well, where nothing is accumulated. -/
theorem idle_inv : (node 0x02).Inv where
  cfgOk := by decide
  storage := ⟨by decide, by decide, by decide, by decide⟩
  position := .inl (by decide)
  accumulated := ⟨by decide, by decide, by decide, by decide, by decide⟩

theorem witness_ReachableStepsStopOnlyOnReservedCodesAndImpossibleOperands :
    (node 0x02).Inv ∧
    refusalOf (step { node 0x02 with pending := [.op (.cmd 0x000000000#36 [])] }) = some (.reservedOpcode 0) ∧
    refusalOf (step { node 0x02 with pending := [.op (.cmd 0xB02100001#36 [])] }) = some .dataOperandShort :=
  ⟨idle_inv, by decide, by decide +kernel⟩

theorem witness_FeedingStopsOutsideTheBufferAndOutOfPosition :
    ({ State.reset with widx := 52 } : State).cfg.cap ≤ ({ State.reset with widx := 52 } : State).widx ∧
    Position.lengthLow ≠ positionOf beforeLast.widx := by decide

theorem witness_DecodeOfEncodeIsTheOperation :
    (Instr.send 0x02 0x10 2 (some [0x01])).wf = true ∧ (Instr.send 0x02 0x10 2 (some [0x01])).selector = none ∧
    (Instr.rxAcc 0x86).wf = true ∧ (Instr.rxAcc 0x86).selector = some (positionOf 51) := by decide

theorem witness_EveryCommandWordIsReadByItsFields :
    ([0x01, 0x02] : List Byte).length = (2#16).toNat ∧ ([] : List Byte).length = (0#16).toNat := by decide

/-- Each way to be accepted (n bytes with op 4 and op 6, at 0 and at 2; pv = 1; none), and a rejected command whose step
is presented with it. -/
theorem witness_DecoderAcceptsOnlyWhatTheEncodingsAdmit :
    decode 7 (.rxByte 0x10) = .ok (.rxLenL 0x10) ∧
    (opField 0x800000002#36 = 4 ∧ ([0x01, 0x02] : List Byte).length = (nField 0x800000002#36).toNat) ∧
    (opField 0xC00000000#36 = 6 ∧ ([] : List Byte).length = (nField 0xC00000000#36).toNat) ∧
    (opField 0xB02100001#36 = 5 ∧ pvField 0xB02100001#36 = 1) ∧
    (opField 0xA02100001#36 = 5 ∧ pvField 0xA02100001#36 = 0) ∧
    (let s : State := { State.reset with pending := [.op (.cmd 0x2EE000000#36 [0x00])] }
     s.cfg.wf = true ∧ s.pending = .op (.cmd 0x2EE000000#36 [0x00]) :: [] ∧
       decode s.widx (.cmd 0x2EE000000#36 [0x00]) = .error .unexpectedData) := by decide

theorem witness_ReservedOperationCodesAreRefused :
    ({ State.reset with pending := [.op (.cmd 0x000000000#36 [])] } : State).cfg.wf = true ∧
    opField 0x000000000#36 = 0 ∧ opField 0xE00000000#36 = 7 := by decide

theorem witness_FrameHasTheLayoutOfTheWireFormat :
    ([0x7F] : List Byte).length ≤ 65535 ∧ wireFrame configTcA 0x01 0x02 0x10 [0x7F] = frame1 := by decide +kernel

theorem witness_CrcByteStepShiftsEightTimes : (0 : Nat) < 16 ∧ (15 : Nat) < 16 := by decide

theorem witness_CrcByteStepIsLinearAndInjective : crcStep 0xFFFF#16 0x01 = crcStep 0xFFFF#16 0x01 := rfl

/-- Each side of the hypothesis: in the header, and in the accumulation before the last byte. -/
theorem witness_AddressesAreSampledOnlyAtTheLastByte :
    (node 0x02).widx < (node 0x02).cfg.cap ∧ (node 0x02).widx < 8 ∧
    (receiving [0xAA, 0x55, 0xC3, 0x01, 0x02, 0x10, 0x00, 0x01] 1).widx < 52 ∧
    (receiving [0xAA, 0x55, 0xC3, 0x01, 0x02, 0x10, 0x00, 0x01] 1).widx + 1 ≠
      10 + (receiving [0xAA, 0x55, 0xC3, 0x01, 0x02, 0x10, 0x00, 0x01] 1).dlen.toNat := by decide

/-- Next states in which the parts of the state differ. -/
theorem witness_EachPartOfTheStateHasItsOwnWriters :
    after (exec (.setOwn 0x55) beforeLast) (fun s => decide (s.ownAddr = beforeLast.ownAddr)) = some false ∧
    after (exec (.rxAcc 0x86) beforeLast) (fun s => decide (s.rxOut = beforeLast.rxOut)) = some false ∧
    after (exec (.send 0x00 0x01 0 none) beforeLast) (fun s => decide (s.txOut = beforeLast.txOut)) = some false := by
  decide +kernel

theorem witness_SendReportsIllegalLengthThenNullPayload :
    (node 0x01).cfg.maxPayload < (17#16).toNat ∧
    (16#16).toNat ≤ (node 0x01).cfg.maxPayload ∧ 0 < (1#16).toNat ∧ (none : Option (List Byte)) = none := by decide

theorem witness_SendWithTooShortAnOperandIsRefused :
    (1#16).toNat ≤ (node 0x01).cfg.maxPayload ∧ ([] : List Byte).length < (1#16).toNat := by decide

/-- With no payload and `n = 0`, and with a payload longer than `n`. -/
theorem witness_SendTransmitsTheFrameOnce :
    (0#16).toNat ≤ (node 0x01).cfg.maxPayload ∧ ¬ 0 < (0#16).toNat ∧
    (0#16).toNat ≤ ((none : Option (List Byte)).getD []).length ∧
    (2#16).toNat ≤ (node 0x01).cfg.maxPayload ∧
    (2#16).toNat ≤ ((some [0x01, 0x02, 0x03] : Option (List Byte)).getD []).length := by decide

theorem witness_SendAndFeedCommute :
    ∃ t u, exec (.send 0x00 0x01 0 none) (node 0x02) = .next t ∧ exec (.feedBuf [0xAA, 0x55]) t = .next u :=
  ⟨_, _, rfl, rfl⟩

theorem witness_PreamblePositionsMatchOrDrop :
    (receiving [] 0).cfg.wf = true ∧ (receiving [] 0).widx = 0 ∧ (receiving [0xAA] 0).widx = 1 ∧
    (receiving [0xAA, 0x55] 0).widx = 2 ∧ (0xAA : Byte) = configTcA.preamble0 ∧ (0xAA : Byte) ≠ configTcA.preamble1 := by
  decide

theorem witness_UncheckedHeaderPositionsAppend :
    (receiving [0xAA, 0x55, 0xC3] 0).widx = 3 ∧ (receiving [0xAA, 0x55, 0xC3, 0x01] 0).widx = 4 ∧
    (receiving [0xAA, 0x55, 0xC3, 0x01, 0x02] 0).widx = 5 ∧
    (receiving [0xAA, 0x55, 0xC3, 0x01, 0x02, 0x10] 0).widx = 6 := by decide

/-- V-L-02 and V-L-03: the two sides of the bound. -/
theorem witness_LengthLowLatchesOrDropsOversize :
    let s := receiving [0xAA, 0x55, 0xC3, 0x01, 0x02, 0x10, 0x00] 0
    s.cfg.wf = true ∧ s.widx = 7 ∧ (be16 (s.readBuf 6) 0x10).toNat ≤ s.cfg.maxPayload ∧
      s.cfg.maxPayload < (be16 (s.readBuf 6) 0x11).toNat := by decide +kernel

/-- The first clause at the last byte but one; the second at the last index of `buf`, which no run reaches, with the least
length there. -/
theorem witness_AccumulationAppendsUntilTheFrameIsComplete :
    (let s := receiving [0xAA, 0x55, 0xC3, 0x01, 0x02, 0x10, 0x00, 0x01, 0x7F] 1
     8 ≤ s.widx ∧ s.widx + 1 < 10 + s.dlen.toNat ∧ s.widx + 1 < s.cfg.cap) ∧
    (let s : State := { State.reset with widx := 51, dlen := 43 }
     8 ≤ s.widx ∧ s.widx + 1 < 10 + s.dlen.toNat ∧ s.widx + 1 = s.cfg.cap) := by decide

/-- A delivery: F1 with its last byte; and the last index of `buf`. -/
theorem witness_LastByteValidatesAndDeliversOrDrops :
    8 ≤ beforeLast.widx ∧ beforeLast.widx = 9 + beforeLast.dlen.toNat ∧ beforeLast.widx < beforeLast.cfg.cap ∧
    crc16 (beforeLast.bufPrefix (8 + beforeLast.dlen.toNat)) =
      be16 (beforeLast.readBuf (8 + beforeLast.dlen.toNat)) 0x86 ∧
    beforeLast.readBuf 4 = beforeLast.ownAddr ∧
    (let s : State := { State.reset with widx := 51, dlen := 42 }
     8 ≤ s.widx ∧ s.widx = 9 + s.dlen.toNat ∧ s.widx < s.cfg.cap) := by decide +kernel

/-- At the least write index, `10 + dlen`, and at the last index of `buf`. -/
theorem witness_CountPastTheFrameSizeIsDropped :
    (let s := receiving frame1Head 0
     8 ≤ s.widx ∧ s.widx < s.cfg.cap ∧ 10 + s.dlen.toNat = s.widx) ∧
    (let s : State := { State.reset with widx := 51, dlen := 41 }
     8 ≤ s.widx ∧ s.widx < s.cfg.cap ∧ 10 + s.dlen.toNat = s.widx) := by decide

/-- Each of the three causes, and the capacity at its boundary: `9 + dlen = CAP`. -/
theorem witness_ValidationChecksCapacityThenCrcThenAddress :
    ({ State.reset with dlen := 43 } : State).validate.cause = some .crcIndexOutOfRange ∧
    (receiving [0xAA, 0x55, 0xC3, 0xEE, 0x01, 0x01, 0x00, 0x00, 0xED, 0x67] 0).validate.cause = some .crcMismatch ∧
    (receiving [0xAA, 0x55, 0xC3, 0x01, 0x07, 0x10, 0x00, 0x01, 0x7F, 0xF9, 0x4A] 1).validate.cause =
      some .addressMismatch := by decide +kernel

theorem witness_FeedByteRunsTheSelectedTransition : beforeLast.widx < beforeLast.cfg.cap := by decide

theorem witness_FeedBufFeedsEachByteInOrder : beforeLast.widx < beforeLast.cfg.cap := by decide

theorem witness_FeedingChangesTheReceiverAlone : ∃ t, exec (.feedBuf [0x86]) beforeLast = .next t := ⟨_, rfl⟩

theorem witness_DropsAreSilent :
    (rxByte 0x37 State.reset).cause = some .preambleMismatch ∧ State.reset.widx < State.reset.cfg.cap := by decide

/-- The left side of each equivalence that can hold is met by `test_drop_causes`. -/
theorem witness_DropCausesAriseExactlyUnderTheirConditions :
    beforeLast.Inv ∧ (rxByte 0x87 beforeLast).cause = some .crcMismatch :=
  ⟨beforeLast_inv, by decide +kernel⟩

theorem witness_EveryDropAndDeliveryReturnsToTheInitialPosition :
    (rxByte 0x37 State.reset).cause ≠ none ∧ (rxByte 0x86 beforeLast).state.rxOut ≠ beforeLast.rxOut := by
  decide +kernel

theorem witness_ExtraneousByteLeavesTheIdleReceiverAsItWas :
    State.reset.cfg.wf = true ∧ State.reset.widx = 0 ∧ State.reset.dlen = 0 ∧
      (0x37 : Byte) ≠ State.reset.cfg.preamble0 := by decide

theorem witness_FailedPreambleByteIsNotTriedAgain :
    State.reset.cfg.wf = true ∧ State.reset.widx = 0 ∧
      State.reset.cfg.preamble1 ≠ State.reset.cfg.preamble0 := by decide

/-- The least and the greatest `MAX_PAYLOAD`. -/
theorem witness_ResetMeetsTheInvariant :
    configTcA.wf = true ∧ ({ configTcA with maxPayload := 0, cap := 11 } : Config).wf = true ∧
    ({ configTcA with maxPayload := 65535, cap := 65546 } : Config).wf = true := by decide

theorem witness_StepKeepsTheInvariant :
    beforeLast.Inv ∧ ∃ t, step beforeLast = .next t :=
  ⟨beforeLast_inv, _, rfl⟩

theorem witness_EveryOperationKeepsTheStorage :
    beforeLast.StorageOk ∧ ∃ t, exec (.feedByte 0x86) beforeLast = .next t :=
  ⟨beforeLast_inv.storage, _, rfl⟩

theorem witness_StepKeepsEveryEmittedFrameAFrame :
    let s : State := { beforeLast with rxOut := [frame1] }
    s.Inv ∧ s.EmittedOk ∧ ∃ t, step s = .next t := by
  refine ⟨⟨by decide, ⟨by decide, by decide, by decide, by decide⟩, .inr (by decide),
    ⟨by decide, by decide, by decide, by decide, by decide⟩⟩,
    ⟨?_, ?_⟩, _, rfl⟩
  · intro f hf
    obtain rfl := List.mem_singleton.1 hf
    exact ⟨0x01, 0x02, 0x10, [0x7F], by decide, by decide +kernel⟩
  · intro f hf
    cases hf

theorem witness_WriteIndexNeverWraps : beforeLast.Inv := beforeLast_inv

/-- A delivery, and (at another byte) none. -/
theorem witness_DeliveredFramesAreCorrectAndAddressedHere :
    beforeLast.Inv ∧ after (exec (.feedByte 0x86) beforeLast) (fun s => s.rxOut) = some [frame1] ∧
      after (exec (.feedByte 0x87) beforeLast) (fun s => s.rxOut) = some [] :=
  ⟨beforeLast_inv, by decide +kernel, by decide +kernel⟩

/-- Both sides of the condition: checksum right and addressed here; checksum wrong. -/
theorem witness_CompleteFrameIsDeliveredExactlyWhenRightAndAddressedHere :
    (node 0x02).cfg.wf = true ∧ (node 0x02).widx = 0 ∧ ([0x7F] : List Byte).length ≤ (node 0x02).cfg.maxPayload ∧
    be16 0xF9 0x86 = crc16 (frameBody configTcA 0x01 0x02 0x10 [0x7F]) ∧
    be16 0xF9 0x87 ≠ crc16 (frameBody configTcA 0x01 0x02 0x10 [0x7F]) := by decide +kernel

theorem witness_FramesBackToBackAreBothDelivered :
    (node 0x02).cfg.wf = true ∧ (node 0x02).widx = 0 ∧ ([0x7F] : List Byte).length ≤ (node 0x02).cfg.maxPayload ∧
    ([] : List Byte).length ≤ (node 0x02).cfg.maxPayload ∧ (0x02 : Byte) = (node 0x02).ownAddr ∧
    (0x00 : Byte) = (node 0x02).bcastAddr := by decide

theorem witness_SentFrameIsReceivedByteForByte :
    (∃ sent, exec (.send 0x02 0x10 1 (some [0x7F])) (node 0x01) = .next sent ∧
      sent.resOut = (node 0x01).resOut ++ [.send .ok]) ∧
    (node 0x02).cfg.wf = true ∧ (node 0x02).widx = 0 ∧ (node 0x02).cfg.preamble0 = (node 0x01).cfg.preamble0 ∧
    (node 0x02).cfg.preamble1 = (node 0x01).cfg.preamble1 ∧ (node 0x02).cfg.preamble2 = (node 0x01).cfg.preamble2 ∧
    (1#16).toNat ≤ (node 0x02).cfg.maxPayload ∧ (node 0x02).ownAddr = 0x02 :=
  ⟨⟨_, rfl, rfl⟩, by decide⟩

/-- Both clauses: bytes fed in mid-frame, and from `widx = 0`. -/
theorem witness_DeliveriesAreBoundedByTheBytesFed :
    beforeLast.Inv ∧ (∃ t, exec (.feedBuf [0x86]) beforeLast = .next t) ∧ ([0x86] : List Byte) ≠ [] ∧
    (node 0x02).Inv ∧ (∃ t, exec (.feedBuf frame0) (node 0x02) = .next t) ∧ (node 0x02).widx = 0 :=
  ⟨beforeLast_inv, ⟨_, rfl⟩, by decide, idle_inv, ⟨_, rfl⟩, rfl⟩

theorem witness_ReceiverReturnsToItsInitialPositionInTime :
    beforeLast.Inv ∧ (List.replicate 26 (0xAA : Byte)).length = 10 + beforeLast.cfg.maxPayload :=
  ⟨beforeLast_inv, by decide⟩

/-- Two states that differ in a stale byte of `buf`, in `txf` and in the epoch. -/
theorem witness_StaleBytesAreNeverObserved :
    let t : State := { node 0x02 with buf := [(3, 0x99)], txf := [(0, 0xAA)], epoch := 4 }
    (node 0x02).Inv ∧ t.Inv ∧ SameButUnobservable (node 0x02) t ∧ t ≠ node 0x02 := by
  refine ⟨idle_inv, ⟨by decide, ⟨by decide, by decide, by decide, by decide⟩, .inl (by decide),
    ⟨by decide, by decide, by decide, by decide, by decide⟩⟩, ?_, by decide⟩
  refine ⟨rfl, rfl, rfl, rfl, rfl, rfl, rfl, rfl, rfl, ?_⟩
  intro i hi
  exact absurd hi (by simp [node, State.reset, State.resetWith])

end Sys2Proof.Tests
end

section
/-! ### The scope of the model (spec/00_scope.md): when a step is refused

What an operation and a step can be refused for, said once: the counterparts of `exec_cases` and `step_cases` for the
outcome `refused`. -/

namespace Sys2Proof

/-- The check of 00_scope.md R6 passes exactly within its bounds. -/
theorem Config.wf_iff (c : Config) : c.wf = true ↔ c.maxPayload ≤ 65535 ∧ 11 + c.maxPayload ≤ c.cap :=
  ⟨Config.wf_bounds, fun h => by simp [Config.wf, h]⟩

namespace Machine

/-- `SEND` is refused only for an operand too short for a frame that passed both checks (92 D26). -/
theorem execSend_refused {dest type : Byte} {n : Half} {p : Option (List Byte)} {s : State} {r : Refusal}
    (h : execSend dest type n p s = .refused r) :
    sendCheck s.cfg n p = .ok ∧ payloadLongEnough n p = false ∧ r = .dataOperandShort := by
  unfold execSend at h
  split at h
  · cases h
  · cases h
  · rename_i hcheck
    split at h
    · cases h
    · rename_i hshort
      cases h
      exact ⟨hcheck, by simpa using hshort, rfl⟩

/-- What an operation can be refused for. -/
inductive ExecRefusedCases (i : Instr) (s : State) (r : Refusal) : Prop where
  | reserved0 (hi : i = .reservedOp0) (hr : r = .reservedOpcode 0)
  | reserved7 (hi : i = .reservedOp7) (hr : r = .reservedOpcode 7)
  | shortOperand (dest type : Byte) (n : Half) (p : Option (List Byte)) (hi : i = .send dest type n p)
      (hcheck : sendCheck s.cfg n p = .ok) (hshort : payloadLongEnough n p = false) (hr : r = .dataOperandShort)
  | outOfPosition (p : Position) (hi : i.selector = some p) (hp : positionOf s.widx ≠ p)
      (hr : r = .positionMismatch s.widx)

/-- A receiver transition is refused only out of its position (30_encoding.md R61). -/
theorem exec_selected_refused {i : Instr} {p : Position} (hp : i.selector = some p) {s : State} {r : Refusal}
    (h : exec i s = .refused r) : positionOf s.widx ≠ p ∧ r = .positionMismatch s.widx := by
  cases i <;> simp only [Instr.selector, reduceCtorEq, Option.some.injEq] at hp <;> subst hp <;>
    exact (State.atPosition_refused _ _ _ _ h).symm

theorem exec_refused_cases {i : Instr} {s : State} {r : Refusal} (h : exec i s = .refused r) :
    ExecRefusedCases i s r := by
  cases hs : i.selector with
  | some p =>
    obtain ⟨hp, hr⟩ := exec_selected_refused hs h
    exact .outOfPosition p hs hp hr
  | none =>
    cases i <;> simp only [Instr.selector, reduceCtorEq] at hs <;> simp only [exec] at h
    case setOwn a => cases h
    case setBcast a => cases h
    case feedByte b => exact absurd h (State.guardBuf_not_refused _ _ _)
    case feedBuf data => exact absurd h (execFeedBuf_not_refused _ _ _)
    case send dest type n p =>
      obtain ⟨hcheck, hshort, hr⟩ := execSend_refused h
      exact .shortOperand dest type n p rfl hcheck hshort hr
    case crc16 data => cases h
    case reservedOp0 => cases h; exact .reserved0 rfl rfl
    case reservedOp7 => cases h; exact .reserved7 rfl rfl

/-- What a step can be refused for. -/
inductive StepRefusedCases (s : State) (r : Refusal) : Prop where
  | illFormed (hcfg : ¬ s.cfg.wf = true) (hr : r = .illFormedConfig)
  | badOperand (e : Encoded) (rest : List Input) (err : DecodeError) (hcfg : s.cfg.wf = true)
      (hp : s.pending = .op e :: rest) (hd : decode s.widx e = .error err) (hr : r = .badDataOperand err)
  | ran (e : Encoded) (rest : List Input) (i : Instr) (hcfg : s.cfg.wf = true) (hp : s.pending = .op e :: rest)
      (hd : decode s.widx e = .ok i) (hx : exec i { s with pending := rest } = .refused r)

theorem step_refused_cases {s : State} {r : Refusal} (h : step s = .refused r) : StepRefusedCases s r := by
  unfold step at h
  split at h
  · rename_i hcfg
    split at h
    · cases h
    · cases h
    · rename_i e rest hp
      split at h
      · rename_i err hd
        cases h
        exact .badOperand e rest err hcfg hp hd rfl
      · rename_i i hd
        exact .ran e rest i hcfg hp hd h
  · rename_i hcfg
    cases h
    exact .illFormed hcfg rfl

/-- An operation itself is never refused for the configuration: `step` alone checks it (log entry 12). -/
theorem exec_not_illFormedConfig (i : Instr) (s : State) : exec i s ≠ .refused .illFormedConfig := by
  intro h
  cases exec_refused_cases h with
  | reserved0 _ hr => cases hr
  | reserved7 _ hr => cases hr
  | shortOperand _ _ _ _ _ _ _ hr => cases hr
  | outOfPosition _ _ _ hr => cases hr

theorem step_eq_illFormedConfig_iff (s : State) : step s = .refused .illFormedConfig ↔ ¬ s.cfg.wf = true := by
  constructor
  · intro h
    cases step_refused_cases h with
    | illFormed hcfg _ => exact hcfg
    | badOperand _ _ _ _ _ _ hr => cases hr
    | ran _ _ i _ _ _ hx => exact absurd hx (exec_not_illFormedConfig i _)
  · intro hcfg
    rw [step, if_neg hcfg]

/-- Settles O5: a step checks the configuration first, and no operation it runs is refused for it. -/
theorem exactlyIllFormedConfigurationsAreRefused : Obligations.ExactlyIllFormedConfigurationsAreRefused := by
  intro s
  rw [step_eq_illFormedConfig_iff, Config.wf_iff]

end Machine
end Sys2Proof
end

section
/-! ### The storage (spec/10_state.md R11, R12, R17)

Which operations write the two memories, and that every write is at an index that exists. -/

namespace Sys2Proof.Machine

variable {s t : State}

/-! #### Canonical and inside the indices -/

theorem State.StorageOk.of_sameMemories (h : s.StorageOk) (hcfg : t.cfg = s.cfg) (hbuf : t.buf = s.buf)
    (htxf : t.txf = s.txf) : t.StorageOk := by
  obtain ⟨hbc, hbi, htc, hti⟩ := h
  constructor <;> simpa only [hcfg, hbuf, htxf]

theorem State.storageOk_of_empty (hbuf : s.buf = []) (htxf : s.txf = []) : s.StorageOk := by
  constructor <;> simp [hbuf, htxf, Memory.wf]

theorem State.StorageOk.append (h : s.StorageOk) (b : Byte) (hw : s.widx < s.cfg.cap) : (s.append b).StorageOk :=
  ⟨Memory.wf_write _ _ _ h.bufCanonical, Memory.inside_write _ _ _ _ hw h.bufInside, h.txfCanonical, h.txfInside⟩

theorem State.StorageOk.txWrite (h : s.StorageOk) {i : Nat} (v : Byte) (hi : i < 10 + s.cfg.maxPayload) :
    (s.txWrite i v).StorageOk :=
  ⟨h.bufCanonical, h.bufInside, Memory.wf_write _ _ _ h.txfCanonical, Memory.inside_write _ _ _ _ hi h.txfInside⟩

theorem State.StorageOk.txWriteAll (h : s.StorageOk) {i : Nat} (bytes : List Byte)
    (hi : i + bytes.length ≤ 10 + s.cfg.maxPayload) : (s.txWriteAll i bytes).StorageOk := by
  induction bytes generalizing s i with
  | nil => exact h
  | cons v vs ih =>
    rw [List.length_cons] at hi
    exact ih (h.txWrite v (by omega)) (by rw [State.txWrite_cfg]; omega)

/-- A receiver transition keeps the storage: it stores at `widx` or nowhere. -/
theorem State.StorageOk.rxByte_state (h : s.StorageOk) (b : Byte) (hw : s.widx < s.cfg.cap) :
    (rxByte b s).state.StorageOk := by
  have hout := rxByte_outside b s
  rcases rxByte_buf b s with hbuf | hbuf
  · exact h.of_sameMemories hout.cfg hbuf hout.txf
  · exact (h.append b hw).of_sameMemories hout.cfg hbuf hout.txf

theorem State.StorageOk.rxAll (h : s.StorageOk) (bytes : List Byte) (hw : s.widx < s.cfg.cap) :
    (rxAll bytes s).StorageOk := by
  induction bytes generalizing s with
  | nil => exact h
  | cons b rest ih => exact ih (h.rxByte_state b hw) (rxByte_inside b s hw)

/-! #### What a `SEND` writes -/

/-- The header of a frame is written byte by byte from index 0, and the payload after it (41_frame_serializer.md R81). -/
theorem State.buildBody_eq (s : State) (dest type : Byte) (n : Half) (payload : List Byte) :
    s.buildBody dest type n payload =
      (s.txWriteAll 0 [s.cfg.preamble0, s.cfg.preamble1, s.cfg.preamble2, s.ownAddr, dest, type, hiByte n,
        loByte n]).txWriteAll 8 payload := rfl

/-- A successful `SEND` keeps the storage: its last byte has index `9 + n`. -/
theorem State.StorageOk.buildAndTransmit (h : s.StorageOk) (dest type : Byte) {n : Half} {payload : List Byte}
    (hn : n.toNat ≤ s.cfg.maxPayload) (hlen : n.toNat = payload.length) :
    (s.buildAndTransmit dest type n payload).StorageOk := by
  have hcfg : (s.buildBody dest type n payload).cfg = s.cfg := by simp [State.buildBody_eq]
  have hbody : (s.buildBody dest type n payload).StorageOk := by
    rw [State.buildBody_eq]
    refine (h.txWriteAll _ ?_).txWriteAll _ ?_
    · simp only [List.length_cons, List.length_nil]
      omega
    · rw [State.txWriteAll_cfg]
      omega
  have hcrc : ((s.buildBody dest type n payload).appendCrc n).StorageOk :=
    (hbody.txWrite _ (by rw [hcfg]; omega)).txWrite _ (by rw [State.txWrite_cfg, hcfg]; omega)
  exact hcrc.of_sameMemories rfl rfl rfl

/-- A successful `SEND` writes `txf`, and transmits the wire frame (41_frame_serializer.md R81). -/
theorem State.buildAndTransmit_eq (s : State) (dest type : Byte) {n : Half} {payload : List Byte}
    (hlen : n.toNat = payload.length) :
    s.buildAndTransmit dest type n payload =
      { s with txf := (s.buildAndTransmit dest type n payload).txf
               txOut := s.txOut ++ [wireFrame s.cfg s.ownAddr dest type payload] } := by
  rw [← State.txPrefix_frame s dest type n payload hlen]
  apply State.ext <;> simp [State.buildAndTransmit, State.transmitTxf, State.appendCrc, State.buildBody_eq]

/-- A `SEND` that answers a next state wrote `txf`, the transmit trace and the results alone. -/
theorem execSend_writes {dest type : Byte} {n : Half} {p : Option (List Byte)}
    (h : execSend dest type n p s = .next t) :
    t = { s with txf := t.txf, txOut := t.txOut, resOut := t.resOut } := by
  rcases execSend_eq_next dest type n p s t h with rfl | rfl | ⟨-, hlen, rfl⟩
  · rfl
  · rfl
  · rw [State.buildAndTransmit_eq s dest type hlen]
    rfl

/-! #### Every operation -/

theorem exec_keeps_storage {i : Instr} (h : s.StorageOk) (hx : exec i s = .next t) : t.StorageOk := by
  cases exec_cases i s t hx with
  | setOwn a _ ht => exact h.of_sameMemories (by rw [ht]) (by rw [ht]) (by rw [ht])
  | setBcast a _ ht => exact h.of_sameMemories (by rw [ht]) (by rw [ht]) (by rw [ht])
  | fedByte b _ hw ht => exact ht ▸ h.rxByte_state b hw
  | fedBuf data _ hw ht =>
    rcases hw with rfl | hw
    · exact ht ▸ h
    · exact ht ▸ h.rxAll data hw
  | sent dest type n p _ ht =>
    rcases ht with rfl | rfl | ⟨hn, hlen, rfl⟩
    · exact h.of_sameMemories rfl rfl rfl
    · exact h.of_sameMemories rfl rfl rfl
    · exact (h.buildAndTransmit dest type hn hlen).of_sameMemories rfl rfl rfl
  | summed data _ ht => exact h.of_sameMemories (by rw [ht]; rfl) (by rw [ht]; rfl) (by rw [ht]; rfl)

end Sys2Proof.Machine

namespace Sys2Proof.Machine

/-- Settles O46: every write of an operation is at an index that exists. -/
theorem everyOperationKeepsTheStorage : Obligations.EveryOperationKeepsTheStorage :=
  fun _ _ _ h hx => exec_keeps_storage h hx

end Sys2Proof.Machine
end

section
/-! ### Who writes what (spec/10_state.md R10, R14 to R16) -/

namespace Sys2Proof.Machine

@[simp] theorem selector_decodePosition (p : Position) (b : Byte) : (decodePosition p b).selector = some p := by
  cases p <;> rfl

/-- The one transition that delivers is `RX_ACC` (42_frame_receiver.md R101, R107). -/
theorem rxByte_rxOut_ne {b : Byte} {s : State} (h : (rxByte b s).state.rxOut ≠ s.rxOut) :
    decodePosition (positionOf s.widx) b = .rxAcc b := by
  cases rxByte_cases b s with
  | appended hr => exact absurd (by rw [hr]; rfl) h
  | latched _ hr _ => exact absurd (by rw [hr]; rfl) h
  | droppedBefore c hr => exact absurd (by rw [hr]; rfl) h
  | droppedAfter c hr => exact absurd (by rw [hr.1]; rfl) h
  | delivered hw _ _ _ _ => rw [positionOf_of_ge _ hw]; rfl

/-- Settles O24: the operations that answer a next state, one after another. -/
theorem eachPartOfTheStateHasItsOwnWriters : Obligations.EachPartOfTheStateHasItsOwnWriters := by
  intro i s t hx
  cases exec_cases i s t hx with
  | setOwn a hi ht => subst hi ht; simp
  | setBcast a hi ht => subst hi ht; simp
  | fedByte b hi hw ht =>
    subst ht
    obtain ⟨hcfg, hown, hbcast, htxf, htxOut, hresOut, hpending, hepoch⟩ := rxByte_outside b s
    refine ⟨hcfg, hpending, hepoch, (absurd hown ·), (absurd hbcast ·), (·.elim (absurd htxOut) (absurd htxf)),
      (absurd hresOut ·), fun hrx => ?_, fun _ => ?_⟩
    · exact hi.elim (fun hi => .inl ⟨b, hi⟩) fun hi => .inr (.inr ⟨b, hi.trans (rxByte_rxOut_ne hrx)⟩)
    · exact hi.elim (fun hi => .inl ⟨b, hi⟩) fun hi => .inr (.inr (by simp [hi]))
  | fedBuf data hi hw ht =>
    subst ht
    obtain ⟨hcfg, hown, hbcast, htxf, htxOut, hresOut, hpending, hepoch⟩ := rxAll_outside data s
    exact ⟨hcfg, hpending, hepoch, (absurd hown ·), (absurd hbcast ·), (·.elim (absurd htxOut) (absurd htxf)),
      (absurd hresOut ·), fun _ => .inr (.inl ⟨data, hi⟩), fun _ => .inr (.inl ⟨data, hi⟩)⟩
  | sent dest type n p hi _ =>
    subst hi
    rw [execSend_writes hx]
    simp
  | summed data hi ht => subst hi ht; simp

end Sys2Proof.Machine
end

section
/-! ### Reset, steps and stops (spec/10_state.md R12, R22, spec/30_encoding.md R61) -/

namespace Sys2Proof.Machine

/-- Settles O1: every field of the reset state, and the reads of its empty memories. -/
theorem resetLeavesTheBlockIdleAndEmpty : Obligations.ResetLeavesTheBlockIdleAndEmpty := by
  intro cfg
  refine ⟨rfl, rfl, rfl, rfl, rfl, rfl, rfl, rfl, fun i => ?_, fun i => ?_, rfl⟩
  · simp [State.readBuf]
  · simp [State.readTx]

/-! #### A step, by what is presented -/

section
variable {s : State}

theorem step_idle (hcfg : s.cfg.wf = true) (hp : s.pending = []) : step s = .next s := by
  rw [step, if_pos hcfg, hp]

theorem step_hwReset {rest : List Input} (hcfg : s.cfg.wf = true) (hp : s.pending = .hwReset :: rest) :
    step s = .next ({ s with pending := rest } : State).hardwareReset := by
  rw [step, if_pos hcfg, hp]

theorem step_badOperand {e : Encoded} {rest : List Input} {err : DecodeError} (hcfg : s.cfg.wf = true)
    (hp : s.pending = .op e :: rest) (hd : decode s.widx e = .error err) : step s = .refused (.badDataOperand err) := by
  simp only [step, if_pos hcfg, hp, hd]

theorem step_op {e : Encoded} {rest : List Input} {i : Instr} (hcfg : s.cfg.wf = true)
    (hp : s.pending = .op e :: rest) (hd : decode s.widx e = .ok i) : step s = exec i { s with pending := rest } := by
  simp only [step, if_pos hcfg, hp, hd]

end

/-! #### Feeding -/

theorem State.guardBuf_outside {s : State} (after : State) (h : s.cfg.cap ≤ s.widx) :
    s.guardBuf after = .fault (.bufIndexOutOfRange s.widx) :=
  if_neg (Nat.not_lt.2 h)

/-- A row of the receiver's table runs the selected transition where its position is the one `widx` selects, and is
refused elsewhere. -/
theorem exec_decodePosition (p : Position) (b : Byte) (s : State) :
    exec (decodePosition p b) s = s.atPosition p (rxByte b s).state := by
  by_cases hp : positionOf s.widx = p
  · cases p <;> simp only [rxByte, hp] <;> rfl
  · cases p <;> exact (if_neg hp).trans (if_neg hp).symm

/-- Settles O7: every feeding operation runs through `guardBuf`, every row of a transition through `atPosition`. -/
theorem feedingStopsOutsideTheBufferAndOutOfPosition : Obligations.FeedingStopsOutsideTheBufferAndOutOfPosition := by
  intro s b data
  refine ⟨fun hw => ⟨State.guardBuf_outside _ hw, ?_, ?_⟩, fun p hp => ?_⟩
  · simp only [exec, execFeedBuf, feedOne, State.guardBuf_outside _ hw]
  · rw [exec_decodePosition, State.atPosition, if_pos rfl, State.guardBuf_outside _ hw]
  · rw [exec_decodePosition, State.atPosition, if_neg hp.symm]

end Sys2Proof.Machine
end

section
/-! ### The transitions by write index (spec/42_frame_receiver.md R93 to R101)

`rxByte` said once for each range of `widx`, and what a byte does to a state whose position is that of R24. -/

namespace Sys2Proof

/-- The preamble byte expected at a position below 3. -/
def Config.preambleAt (c : Config) (i : Nat) : Byte :=
  match i with
  | 0 => c.preamble0
  | 1 => c.preamble1
  | _ => c.preamble2

namespace Machine

variable {b : Byte} {s : State}

theorem rxByte_preamble (h : s.widx < 3) : rxByte b s = s.matchPreamble (s.cfg.preambleAt s.widx) b := by
  obtain h | h | h : s.widx = 0 ∨ s.widx = 1 ∨ s.widx = 2 := by omega
  · simp [rxByte, positionOf, h, rxP0, Config.preambleAt]
  · simp [rxByte, positionOf, h, rxP1, Config.preambleAt]
  · simp [rxByte, positionOf, h, rxP2, Config.preambleAt]

theorem rxByte_unchecked (h3 : 3 ≤ s.widx) (h7 : s.widx < 7) : rxByte b s = (s.append b).accept := by
  obtain h | h | h | h : s.widx = 3 ∨ s.widx = 4 ∨ s.widx = 5 ∨ s.widx = 6 := by omega
  · simp [rxByte, positionOf, h, rxSrc]
  · simp [rxByte, positionOf, h, rxTgt]
  · simp [rxByte, positionOf, h, rxType]
  · simp [rxByte, positionOf, h, rxLenH]

theorem rxByte_lengthLow (h : s.widx = 7) : rxByte b s = (s.append b).latchLength.checkLength := by
  simp [rxByte, positionOf, h, rxLenL]

/-- Validation ends in the initial position, whatever it finds. -/
theorem State.validate_idle (s : State) : s.validate.state.widx = 0 ∧ s.validate.state.dlen = 0 := by
  rcases s.validate_cases with ⟨_, h⟩ | ⟨_, _, h⟩ | ⟨_, _, _, h⟩ | ⟨_, _, _, h⟩ <;> rw [h] <;> exact ⟨rfl, rfl⟩

/-- How a byte moves the receiver: back to its initial position; or on by one, at a position where it is the byte
expected, or with the length latched, or inside a frame that it does not complete. -/
inductive RxProgress (b : Byte) (s t : State) : Prop where
  | idle (hw : t.widx = 0) (hd : t.dlen = 0)
  | header (hw : s.widx < 7) (hb : s.widx < 3 → b = s.cfg.preambleAt s.widx) (ht : t = s.append b)
  | latched (hw : s.widx = 7) (hlen : t.dlen.toNat ≤ s.cfg.maxPayload) (ht : t = (s.append b).latchLength)
  | accumulated (hw : 8 ≤ s.widx) (hmore : s.widx + 1 < 10 + s.dlen.toNat) (ht : t = s.append b)

theorem rxByte_progress (b : Byte) (s : State) : RxProgress b s (rxByte b s).state := by
  obtain h | ⟨h3, h7⟩ | h | h : s.widx < 3 ∨ (3 ≤ s.widx ∧ s.widx < 7) ∨ s.widx = 7 ∨ 8 ≤ s.widx := by omega
  · rw [rxByte_preamble h, State.matchPreamble]
    split
    · exact .header (by omega) (fun _ => by assumption) rfl
    · exact .idle rfl rfl
  · rw [rxByte_unchecked h3 h7]
    exact .header h7 (by omega) rfl
  · rw [rxByte_lengthLow h, State.checkLength]
    split
    · exact .idle rfl rfl
    · rename_i hlen
      exact .latched h (by simpa [State.lengthOversize] using hlen) rfl
  · rw [rxByte_of_ge b s h]
    obtain hc | hc | hc : s.widx + 1 < 10 + s.dlen.toNat ∨ s.widx = 9 + s.dlen.toNat ∨ 10 + s.dlen.toNat ≤ s.widx := by
      omega
    · rw [rxAcc_incomplete b s hc]
      exact .accumulated h hc rfl
    · rw [rxAcc_complete b s hc]
      obtain ⟨hw, hd⟩ := (s.append b).validate_idle
      exact .idle hw hd
    · rw [rxAcc_past b s hc]
      exact .idle rfl rfl

end Machine
end Sys2Proof
end

section
/-! ### The invariant of the reachable states (spec/10_state.md R24) -/

namespace Sys2Proof.Machine

variable {s t : State}

/-- In the initial position nothing is accumulated. -/
theorem State.inv_of_idle (hcfg : s.cfg.wf = true) (hst : s.StorageOk) (hw : s.widx = 0) (hd : s.dlen = 0) : s.Inv where
  cfgOk := hcfg
  storage := hst
  position := .inl ⟨by omega, hd⟩
  accumulated := by constructor <;> intros <;> omega

/-- The invariant speaks of the parameters, the storage and the receiver alone. -/
theorem State.Inv.of_sameReceiver (h : s.Inv) (hst : t.StorageOk) (hcfg : t.cfg = s.cfg) (hbuf : t.buf = s.buf)
    (hw : t.widx = s.widx) (hd : t.dlen = s.dlen) (he : t.epoch = s.epoch) : t.Inv := by
  have hread : ∀ i, t.readBuf i = s.readBuf i := s.readBuf_congr t hbuf he
  obtain ⟨hwf, -, hpos, hwritten, h0, h1, h2, hlatched⟩ := h
  refine ⟨hcfg ▸ hwf, hst, ?_, ?_⟩
  · simpa only [State.PositionOk, hcfg, hw, hd] using hpos
  · constructor <;> simpa only [State.readBuf16, hcfg, hbuf, hw, hd, hread]

/-- One more byte is accumulated: it is stored at the old `widx`, at a preamble position it is the preamble's, and a length
is latched from the bytes stored. -/
theorem State.AccumulatedOk.of_appended {b : Byte} (h : s.AccumulatedOk) (hbuf : t.buf = Memory.write s.buf s.widx b)
    (ht : Appended b s t) (hb : s.widx < 3 → b = s.cfg.preambleAt s.widx)
    (hlatched : 8 ≤ t.widx → t.dlen = t.readBuf16 6) : t.AccumulatedOk := by
  obtain ⟨hout, -, hstored, hothers, hadv⟩ := ht
  have hpreamble : ∀ i < 3, i < t.widx → (i < s.widx → s.readBuf i = s.cfg.preambleAt i) →
      t.readBuf i = s.cfg.preambleAt i := by
    intro i hi hit hold
    by_cases his : i = s.widx
    · subst his
      rw [hstored, hb hi]
    · rw [hothers i his, hold (by omega)]
  refine ⟨fun i hi => ?_, fun hw => ?_, fun hw => ?_, fun hw => ?_, hlatched⟩
  · rw [hbuf, Memory.read?_write]
    split
    · rfl
    · exact h.written i (by omega)
  · rw [hout.cfg]
    exact hpreamble 0 (by omega) hw h.first
  · rw [hout.cfg]
    exact hpreamble 1 (by omega) hw h.second
  · rw [hout.cfg]
    exact hpreamble 2 (by omega) hw h.third

/-- A latched length stays the one in `buf[6]`, `buf[7]` while later bytes are appended. -/
theorem State.readBuf16_append (b : Byte) {i : Nat} (h : i + 1 < s.widx) : (s.append b).readBuf16 i = s.readBuf16 i := by
  rw [State.readBuf16, State.readBuf16, State.readBuf_append, State.readBuf_append, if_neg (by omega), if_neg (by omega)]

/-- Latching the length after the append leaves the append as it was. -/
theorem State.latchLength_appended {b : Byte} (h : Appended b s t) : Appended b s t.latchLength := by
  obtain ⟨⟨hcfg, hown, hbcast, htxf, htxOut, hresOut, hpending, hepoch⟩, hrxOut, hstored, hothers, hadv⟩ := h
  exact ⟨⟨hcfg, hown, hbcast, htxf, htxOut, hresOut, hpending, hepoch⟩, hrxOut, hstored, hothers, hadv⟩

/-- A receiver transition keeps the invariant. -/
theorem State.Inv.rxByte_state (h : s.Inv) (b : Byte) : (rxByte b s).state.Inv := by
  have happ := s.append_appended b h.room
  have hroom := h.room
  have hst := h.storage.rxByte_state b (by omega)
  have hcfg : (rxByte b s).state.cfg.wf = true := (rxByte_outside b s).cfg ▸ h.cfgOk
  cases rxByte_progress b s with
  | idle hw hd => exact State.inv_of_idle hcfg hst hw hd
  | header hw hb ht =>
    rw [ht] at hst ⊢
    have hd : s.dlen = 0 := by
      rcases h.position with ⟨_, hd⟩ | ⟨h8, _⟩
      · exact hd
      · omega
    refine ⟨h.cfgOk, hst, .inl ⟨by rw [happ.advanced]; omega, hd⟩, h.accumulated.of_appended rfl happ hb fun h8 => ?_⟩
    rw [happ.advanced] at h8
    omega
  | latched hw hlen ht =>
    rw [ht] at hst hlen ⊢
    have hlatch := State.latchLength_appended happ
    refine ⟨h.cfgOk, hst, .inr ⟨?_, ?_, hlen⟩, h.accumulated.of_appended rfl hlatch (by omega) fun _ => rfl⟩
    · rw [hlatch.advanced, hw]
    · rw [hlatch.advanced]
      omega
  | accumulated hw hmore ht =>
    rw [ht] at hst ⊢
    have hlen : s.dlen.toNat ≤ s.cfg.maxPayload := by
      rcases h.position with ⟨_, _⟩ | ⟨_, _, hlen⟩
      · omega
      · exact hlen
    refine ⟨h.cfgOk, hst, .inr ⟨?_, ?_, hlen⟩, h.accumulated.of_appended rfl happ (by omega) fun _ => ?_⟩
    · rw [happ.advanced]
      omega
    · rw [happ.advanced, State.append_dlen]
      omega
    · rw [State.append_dlen, State.readBuf16_append b (by omega)]
      exact h.accumulated.latched hw

theorem State.Inv.rxAll (h : s.Inv) (bytes : List Byte) : (rxAll bytes s).Inv := by
  induction bytes generalizing s with
  | nil => exact h
  | cons b rest ih => exact ih (h.rxByte_state b)

theorem exec_keeps_inv {i : Instr} (h : s.Inv) (hx : exec i s = .next t) : t.Inv := by
  have hst := exec_keeps_storage h.storage hx
  cases exec_cases i s t hx with
  | setOwn a _ ht => subst ht; exact h.of_sameReceiver hst rfl rfl rfl rfl rfl
  | setBcast a _ ht => subst ht; exact h.of_sameReceiver hst rfl rfl rfl rfl rfl
  | fedByte b _ _ ht => exact ht ▸ h.rxByte_state b
  | fedBuf data _ _ ht => exact ht ▸ h.rxAll data
  | sent dest type n p hi _ =>
    subst hi
    rw [execSend_writes hx] at hst ⊢
    exact h.of_sameReceiver hst rfl rfl rfl rfl rfl
  | summed data _ ht => subst ht; exact h.of_sameReceiver hst rfl rfl rfl rfl rfl

/-- What is presented next is no part of the invariant. -/
theorem State.Inv.with_pending (h : s.Inv) (rest : List Input) : State.Inv { s with pending := rest } :=
  h.of_sameReceiver (h.storage.of_sameMemories rfl rfl rfl) rfl rfl rfl rfl rfl

theorem State.hardwareReset_inv (hcfg : s.cfg.wf = true) : s.hardwareReset.Inv :=
  State.inv_of_idle hcfg (State.storageOk_of_empty rfl rfl) rfl rfl

theorem State.resetWith_inv {cfg : Config} (hcfg : cfg.wf = true) : (State.resetWith cfg).Inv :=
  State.inv_of_idle hcfg (State.storageOk_of_empty rfl rfl) rfl rfl

end Sys2Proof.Machine

namespace Sys2Proof.Machine

/-- Settles O44: after reset nothing is accumulated and nothing was emitted. -/
theorem resetMeetsTheInvariant : Obligations.ResetMeetsTheInvariant :=
  fun _ hcfg => ⟨State.resetWith_inv hcfg, by simp [State.EmittedOk]⟩

/-- Settles O45: a step holds the state, resets it, or runs one operation. -/
theorem stepKeepsTheInvariant : Obligations.StepKeepsTheInvariant := by
  intro s t h hstep
  obtain ⟨hcfg, hcases⟩ := step_cases s t hstep
  cases hcases with
  | idle _ ht => exact ht ▸ h
  | reset rest _ ht => exact ht ▸ State.hardwareReset_inv hcfg
  | ran e rest i _ _ hx => exact exec_keeps_inv (h.with_pending rest) hx

end Sys2Proof.Machine
end

section
/-! ### What nothing can observe (spec/10_state.md R19)

Two states alike but for the stale bytes of `buf`, `txf` and the free values: each operation of the receiver and each
command takes them to two such states. -/

namespace Sys2Proof.Machine

variable {s t : State}

/-! #### What the receiver reads -/

theorem SameButUnobservable.readBuf16 (h : SameButUnobservable s t) {i : Nat} (hi : i + 1 < s.widx) :
    t.readBuf16 i = s.readBuf16 i := by
  rw [State.readBuf16, State.readBuf16, h.accumulated i (by omega), h.accumulated (i + 1) hi]

theorem SameButUnobservable.bufPrefix (h : SameButUnobservable s t) {k : Nat} (hk : k ≤ s.widx) :
    t.bufPrefix k = s.bufPrefix k :=
  State.bufPrefix_congr s t k fun i hi => h.accumulated i (by omega)

/-! #### The operations of the receiver -/

theorem SameButUnobservable.append (h : SameButUnobservable s t) (b : Byte) :
    SameButUnobservable (s.append b) (t.append b) := by
  obtain ⟨hcfg, hw, hd, hown, hbcast, hrx, htx, hres, hpend, hacc⟩ := h
  refine ⟨hcfg, by simp [hcfg, hw], hd, hown, hbcast, hrx, htx, hres, hpend, fun i hi => ?_⟩
  rw [State.append_widx] at hi
  have := Nat.mod_le (s.widx + 1) s.cfg.cap
  rw [State.readBuf_append, State.readBuf_append, hw]
  split
  · rfl
  · exact hacc i (by omega)

theorem SameButUnobservable.rxReset (h : SameButUnobservable s t) : SameButUnobservable s.rxReset t.rxReset := by
  obtain ⟨hcfg, -, -, hown, hbcast, hrx, htx, hres, hpend, -⟩ := h
  exact ⟨hcfg, rfl, rfl, hown, hbcast, hrx, htx, hres, hpend, fun i hi => absurd hi (Nat.not_lt_zero i)⟩

theorem SameButUnobservable.latchLength (h : SameButUnobservable s t) (hw : 8 ≤ s.widx) :
    SameButUnobservable s.latchLength t.latchLength :=
  { h with dlen := h.readBuf16 (by omega) }

theorem SameButUnobservable.deliverFrame (h : SameButUnobservable s t) (hfull : 10 + s.dlen.toNat ≤ s.widx) :
    SameButUnobservable s.deliverFrame t.deliverFrame := by
  have hseq := h.bufPrefix hfull
  obtain ⟨hcfg, -, hd, hown, hbcast, hrx, htx, hres, hpend, -⟩ := h
  refine ⟨hcfg, rfl, rfl, hown, hbcast, ?_, htx, hres, hpend, fun i hi => absurd hi (Nat.not_lt_zero i)⟩
  simp [State.deliverFrame, hrx, hd, hseq]

theorem SameButUnobservable.matchPreamble (h : SameButUnobservable s t) (expected b : Byte) :
    SameButUnobservable (s.matchPreamble expected b).state (t.matchPreamble expected b).state := by
  rw [State.matchPreamble, State.matchPreamble]
  split
  · exact h.append b
  · exact h.rxReset

theorem SameButUnobservable.checkLength (h : SameButUnobservable s t) :
    SameButUnobservable s.checkLength.state t.checkLength.state := by
  rw [State.checkLength, State.checkLength, State.lengthOversize, State.lengthOversize, h.dlen, h.cfg]
  split
  · exact h.rxReset
  · exact h

/-- Validation of a complete frame reads its bytes alone. -/
theorem SameButUnobservable.validate (h : SameButUnobservable s t) (hfull : 10 + s.dlen.toNat ≤ s.widx) :
    SameButUnobservable s.validate.state t.validate.state := by
  have hout : t.crcIndexOutside = s.crcIndexOutside := by
    rw [State.crcIndexOutside, State.crcIndexOutside, h.dlen, h.cfg]
  have hexp : t.expectedCrc = s.expectedCrc := by
    rw [State.expectedCrc, State.expectedCrc, h.dlen, h.bufPrefix (by omega)]
  have hrec : t.receivedCrc = s.receivedCrc := by
    rw [State.receivedCrc, State.receivedCrc, h.dlen, h.readBuf16 (by omega)]
  have haddr : t.addressMatches = s.addressMatches := by
    rw [State.addressMatches, State.addressMatches, h.ownAddr, h.bcastAddr, h.accumulated 4 (by omega)]
  rw [State.validate, State.validate, hout, hexp, hrec, haddr]
  split
  · exact h.rxReset
  · split
    · exact h.rxReset
    · split
      · exact h.rxReset
      · exact h.deliverFrame hfull

/-- In the accumulation phase of a state of the invariant, a byte leaves the frame incomplete or completes it. -/
theorem SameButUnobservable.rxAcc_state (h : SameButUnobservable s t) (hs : s.Inv) (b : Byte) (h8 : 8 ≤ s.widx) :
    SameButUnobservable (rxAcc b s).state (rxAcc b t).state := by
  obtain hc | hc : s.widx + 1 < 10 + s.dlen.toNat ∨ s.widx = 9 + s.dlen.toNat := by
    rcases hs.position with ⟨_, _⟩ | ⟨_, _, _⟩ <;> omega
  · rw [rxAcc_incomplete b s hc, rxAcc_incomplete b t (by rw [h.widx, h.dlen]; exact hc)]
    exact h.append b
  · rw [rxAcc_complete b s hc, rxAcc_complete b t (by rw [h.widx, h.dlen]; exact hc)]
    refine (h.append b).validate ?_
    rw [State.append_widx_of_room s b hs.room, State.append_dlen]
    omega

theorem SameButUnobservable.rxByte_state (h : SameButUnobservable s t) (hs : s.Inv) (b : Byte) :
    SameButUnobservable (rxByte b s).state (rxByte b t).state := by
  have hw := h.widx
  obtain hp | ⟨h3, h7⟩ | hp | hp : s.widx < 3 ∨ (3 ≤ s.widx ∧ s.widx < 7) ∨ s.widx = 7 ∨ 8 ≤ s.widx := by omega
  · rw [rxByte_preamble hp, rxByte_preamble (hw ▸ hp), hw, h.cfg]
    exact h.matchPreamble _ b
  · rw [rxByte_unchecked h3 h7, rxByte_unchecked (hw ▸ h3) (hw ▸ h7)]
    exact h.append b
  · rw [rxByte_lengthLow hp, rxByte_lengthLow (hw.trans hp)]
    refine ((h.append b).latchLength ?_).checkLength
    rw [State.append_widx_of_room s b hs.room]
    omega
  · rw [rxByte_of_ge b s hp, rxByte_of_ge b t (hw ▸ hp)]
    exact h.rxAcc_state hs b hp

theorem SameButUnobservable.rxAll (h : SameButUnobservable s t) (hs : s.Inv) (bytes : List Byte) :
    SameButUnobservable (rxAll bytes s) (rxAll bytes t) := by
  induction bytes generalizing s t with
  | nil => exact h
  | cons b rest ih => exact ih (h.rxByte_state hs b) (hs.rxByte_state b)

/-! #### The outcomes -/

/-- Two outcomes that nothing can tell apart: both stop for the same reason, or both answer next states that differ in
nothing that can be observed. -/
inductive Alike : Host.Outcome State Fault Refusal → Host.Outcome State Fault Refusal → Prop where
  | next {s t : State} (h : SameButUnobservable s t) : Alike (.next s) (.next t)
  | fault (f : Fault) : Alike (.fault f) (.fault f)
  | refused (r : Refusal) : Alike (.refused r) (.refused r)

theorem Alike.of_next {y : Host.Outcome State Fault Refusal} (h : Alike (.next s) y) :
    ∃ t, y = .next t ∧ SameButUnobservable s t := by
  cases h with
  | next h => exact ⟨_, rfl, h⟩

theorem Alike.of_refused {r : Refusal} {y : Host.Outcome State Fault Refusal} (h : Alike (.refused r) y) :
    y = .refused r := by
  cases h
  rfl

theorem SameButUnobservable.guardBuf (h : SameButUnobservable s t) {s' t' : State} (h' : SameButUnobservable s' t') :
    Alike (s.guardBuf s') (t.guardBuf t') := by
  rw [State.guardBuf, State.guardBuf, h.widx, h.cfg]
  split
  · exact .next h'
  · exact .fault _

theorem SameButUnobservable.atPosition (h : SameButUnobservable s t) (p : Position) {s' t' : State}
    (h' : SameButUnobservable s' t') : Alike (s.atPosition p s') (t.atPosition p t') := by
  rw [State.atPosition, State.atPosition, h.widx]
  split
  · exact h.guardBuf h'
  · exact .refused _

theorem SameButUnobservable.giveResult (h : SameButUnobservable s t) (r : CmdResult) :
    SameButUnobservable (s.giveResult r) (t.giveResult r) :=
  { h with resOut := congrArg (· ++ [r]) h.resOut }

/-- A `SEND` transmits a frame made of its operands, the parameters and `own_addr`. -/
theorem SameButUnobservable.buildAndTransmit (h : SameButUnobservable s t) (dest type : Byte) {n : Half}
    {payload : List Byte} (hlen : n.toNat = payload.length) :
    SameButUnobservable (s.buildAndTransmit dest type n payload) (t.buildAndTransmit dest type n payload) := by
  rw [s.buildAndTransmit_eq dest type hlen, t.buildAndTransmit_eq dest type hlen]
  obtain ⟨hcfg, hw, hd, hown, hbcast, hrx, htx, hres, hpend, hacc⟩ := h
  exact ⟨hcfg, hw, hd, hown, hbcast, hrx, by simp only [hcfg, hown, htx], hres, hpend, hacc⟩

theorem payloadRead_length {n : Half} {p : Option (List Byte)} (h : payloadLongEnough n p = true) :
    n.toNat = (payloadRead n p).length := by
  have : n.toNat ≤ (payloadBytes p).length := by simpa [payloadLongEnough] using h
  simp [payloadRead, this]

theorem SameButUnobservable.execSend (h : SameButUnobservable s t) (dest type : Byte) (n : Half)
    (p : Option (List Byte)) : Alike (execSend dest type n p s) (execSend dest type n p t) := by
  rw [Machine.execSend, Machine.execSend, h.cfg]
  split
  · exact .next (h.giveResult _)
  · exact .next (h.giveResult _)
  · split
    · rename_i hlong
      exact .next ((h.buildAndTransmit dest type (payloadRead_length hlong)).giveResult _)
    · exact .refused _

theorem SameButUnobservable.execFeedBuf (h : SameButUnobservable s t) (hs : s.Inv) (data : List Byte) :
    Alike (execFeedBuf data s) (execFeedBuf data t) := by
  have hroom := hs.room
  rw [execFeedBuf_eq data s (by omega), execFeedBuf_eq data t (by rw [h.widx, h.cfg]; omega)]
  exact .next (h.rxAll hs data)

/-! #### Operations and steps -/

/-- A row of the receiver's table is the transition of its selector. -/
theorem eq_decodePosition_of_selector {i : Instr} {p : Position} (hp : i.selector = some p) :
    ∃ b, i = decodePosition p b := by
  cases i <;> simp only [Instr.selector, reduceCtorEq, Option.some.injEq] at hp <;> subst hp <;> exact ⟨_, rfl⟩

theorem SameButUnobservable.exec (h : SameButUnobservable s t) (hs : s.Inv) (i : Instr) :
    Alike (exec i s) (exec i t) := by
  cases hsel : i.selector with
  | some p =>
    obtain ⟨b, rfl⟩ := eq_decodePosition_of_selector hsel
    rw [exec_decodePosition, exec_decodePosition]
    exact h.atPosition p (h.rxByte_state hs b)
  | none =>
    cases i <;> simp only [Instr.selector, reduceCtorEq] at hsel
    case setOwn a => exact .next { h with ownAddr := rfl }
    case setBcast a => exact .next { h with bcastAddr := rfl }
    case feedByte b => exact h.guardBuf (h.rxByte_state hs b)
    case feedBuf data => exact h.execFeedBuf hs data
    case send dest type n p => exact h.execSend dest type n p
    case crc16 data => exact .next (h.giveResult _)
    case reservedOp0 => exact .refused _
    case reservedOp7 => exact .refused _

theorem SameButUnobservable.with_pending (h : SameButUnobservable s t) (rest : List Input) :
    SameButUnobservable { s with pending := rest } { t with pending := rest } :=
  { h with pending := rfl }

theorem SameButUnobservable.hardwareReset (h : SameButUnobservable s t) :
    SameButUnobservable s.hardwareReset t.hardwareReset :=
  ⟨h.cfg, rfl, rfl, rfl, rfl, rfl, rfl, rfl, h.pending, fun i hi => absurd hi (Nat.not_lt_zero i)⟩

theorem SameButUnobservable.step (h : SameButUnobservable s t) (hs : s.Inv) : Alike (step s) (step t) := by
  have hsc := hs.cfgOk
  have htc : t.cfg.wf = true := h.cfg ▸ hsc
  match hp : s.pending with
  | [] =>
    rw [step_idle hsc hp, step_idle htc (h.pending.trans hp)]
    exact .next h
  | .hwReset :: rest =>
    rw [step_hwReset hsc hp, step_hwReset htc (h.pending.trans hp)]
    exact .next (h.with_pending rest).hardwareReset
  | .op e :: rest =>
    cases hd : decode s.widx e with
    | error err =>
      rw [step_badOperand hsc hp hd, step_badOperand htc (h.pending.trans hp) (h.widx ▸ hd)]
      exact .refused _
    | ok i =>
      rw [step_op hsc hp hd, step_op htc (h.pending.trans hp) (h.widx ▸ hd)]
      exact (h.with_pending rest).exec (hs.with_pending rest) i

end Sys2Proof.Machine

namespace Sys2Proof.Machine

/-- Settles O55: two such states take steps with outcomes that nothing can tell apart. -/
theorem staleBytesAreNeverObserved : Obligations.StaleBytesAreNeverObserved := by
  intro s t hs _ h
  have halike := h.step hs
  refine ⟨fun s' hs' => ?_, fun r hr => ?_⟩
  · rw [hs'] at halike
    exact halike.of_next
  · rw [hr] at halike
    exact halike.of_refused

end Sys2Proof.Machine
end

section
/-! ### Byte order (spec/20_memory.md R30) -/

namespace Sys2Proof.Machine

@[simp] theorem be16_toNat (h l : Byte) : (be16 h l).toNat = h.toNat * 256 + l.toNat := by
  rw [be16, BitVec.toNat_append, ← Nat.shiftLeft_add_eq_or_of_lt l.isLt, Nat.shiftLeft_eq]

/-- Settles O14: the value of the combine, and the two bytes as its inverses. -/
theorem halfWordsAreBigEndian : Obligations.HalfWordsAreBigEndian :=
  fun h l v => ⟨be16_toNat h l, be16_hiByte_loByte v, hiByte_be16 h l, loByte_be16 h l⟩

end Sys2Proof.Machine
end

section
/-! ### What a received byte depends on (spec/20_memory.md R42, spec/42_frame_receiver.md R106)

A transition reads nothing outside the receiver but the parameters and, at the last byte of a frame, the two address
registers: in other surroundings the same byte does the same to the receiver. -/

namespace Sys2Proof.Machine

variable {b : Byte} {s o : State}

/-- The receiver of `s` in the surroundings of `o`: what a received byte may write, the parameters and the epoch are
those of `s`, and all else is that of `o`. -/
def State.inSurroundings (s o : State) : State :=
  { o with cfg := s.cfg, epoch := s.epoch, buf := s.buf, widx := s.widx, dlen := s.dlen, rxOut := s.rxOut }

/-- What is the same outside the receiver makes the same surroundings. -/
theorem SameOutsideReceiver.eq_inSurroundings (h : SameOutsideReceiver o s) : s = s.inSurroundings o := by
  obtain ⟨-, hown, hbcast, htxf, htxOut, hresOut, hpending, -⟩ := h
  apply State.ext <;> simp only [State.inSurroundings, hown, hbcast, htxf, htxOut, hresOut, hpending]

/-- The surroundings hold the same addresses as the state itself. -/
def SameAddresses (s o : State) : Prop := o.ownAddr = s.ownAddr ∧ o.bcastAddr = s.bcastAddr

/-- A byte fed in this state completes the frame (42_frame_receiver.md R101). -/
def State.AtLastByte (s : State) : Prop := 8 ≤ s.widx ∧ s.widx = 9 + s.dlen.toNat

theorem State.matchPreamble_inSurroundings (expected : Byte) :
    ((s.inSurroundings o).matchPreamble expected b).state = (s.matchPreamble expected b).state.inSurroundings o := by
  rw [State.matchPreamble, State.matchPreamble]
  split <;> rfl

theorem State.checkLength_inSurroundings :
    (s.inSurroundings o).checkLength.state = s.checkLength.state.inSurroundings o := by
  have hsize : (s.inSurroundings o).lengthOversize = s.lengthOversize := rfl
  rw [State.checkLength, State.checkLength, hsize]
  split <;> rfl

/-- Validation reads the address registers, and nothing else outside the receiver. -/
theorem State.validate_inSurroundings (haddr : SameAddresses s o) :
    (s.inSurroundings o).validate.state = s.validate.state.inSurroundings o := by
  have hindex : (s.inSurroundings o).crcIndexOutside = s.crcIndexOutside := rfl
  have hexpected : (s.inSurroundings o).expectedCrc = s.expectedCrc := rfl
  have hreceived : (s.inSurroundings o).receivedCrc = s.receivedCrc := rfl
  have hmatches : (s.inSurroundings o).addressMatches = s.addressMatches := by
    obtain ⟨hown, hbcast⟩ := haddr
    rw [State.addressMatches, State.addressMatches, ← hown, ← hbcast]
    rfl
  rw [State.validate, State.validate, hindex, hexpected, hreceived, hmatches]
  split
  · rfl
  · split
    · rfl
    · split <;> rfl

theorem rxAcc_inSurroundings (h8 : 8 ≤ s.widx) (haddr : s.AtLastByte → SameAddresses s o) :
    (rxAcc b (s.inSurroundings o)).state = (rxAcc b s).state.inSurroundings o := by
  obtain hc | hc | hc : s.widx + 1 < 10 + s.dlen.toNat ∨ s.widx = 9 + s.dlen.toNat ∨ 10 + s.dlen.toNat ≤ s.widx := by
    omega
  · rw [rxAcc_incomplete b s hc, rxAcc_incomplete b (s.inSurroundings o) hc]
    rfl
  · rw [rxAcc_complete b s hc, rxAcc_complete b (s.inSurroundings o) hc]
    exact State.validate_inSurroundings (s := s.append b) (haddr ⟨h8, hc⟩)
  · rw [rxAcc_past b s hc, rxAcc_past b (s.inSurroundings o) hc]
    rfl

/-- A byte does the same to the receiver in any surroundings, if only the addresses are the same at the last byte. -/
theorem rxByte_inSurroundings (haddr : s.AtLastByte → SameAddresses s o) :
    (rxByte b (s.inSurroundings o)).state = (rxByte b s).state.inSurroundings o := by
  obtain hp | ⟨h3, h7⟩ | hp | hp : s.widx < 3 ∨ (3 ≤ s.widx ∧ s.widx < 7) ∨ s.widx = 7 ∨ 8 ≤ s.widx := by omega
  · rw [rxByte_preamble hp, rxByte_preamble (s := s.inSurroundings o) hp]
    exact State.matchPreamble_inSurroundings _
  · rw [rxByte_unchecked h3 h7, rxByte_unchecked (s := s.inSurroundings o) h3 h7]
    rfl
  · rw [rxByte_lengthLow hp, rxByte_lengthLow (s := s.inSurroundings o) hp]
    exact State.checkLength_inSurroundings (s := (s.append b).latchLength)
  · rw [rxByte_of_ge b s hp, rxByte_of_ge b (s.inSurroundings o) hp]
    exact rxAcc_inSurroundings hp haddr

/-- No byte writes an address register, so a whole buffer is received alike where the addresses are the same. -/
theorem rxAll_inSurroundings (bytes : List Byte) (haddr : SameAddresses s o) :
    rxAll bytes (s.inSurroundings o) = (rxAll bytes s).inSurroundings o := by
  induction bytes generalizing s with
  | nil => rfl
  | cons b rest ih =>
    have hout := rxByte_outside b s
    rw [rxAll, rxAll, rxByte_inSurroundings fun _ => haddr]
    exact ih ⟨haddr.1.trans hout.ownAddr.symm, haddr.2.trans hout.bcastAddr.symm⟩

end Sys2Proof.Machine

namespace Sys2Proof.Machine

/-- Settles O23: a byte that is not the last of its frame is received alike in surroundings with another address. -/
theorem addressesAreSampledOnlyAtTheLastByte : Obligations.AddressesAreSampledOnlyAtTheLastByte := by
  intro a b s hw hmore
  have hlast : ¬ s.AtLastByte := fun ⟨h8, hfull⟩ => by omega
  have hfeed : ∀ o : State, exec (.feedByte b) (s.inSurroundings o) = .next ((rxByte b s).state.inSurroundings o) :=
    fun o => (State.guardBuf_next _ _ hw).trans (congrArg _ (rxByte_inSurroundings (absurd · hlast)))
  have hsame := (rxByte_outside b s).eq_inSurroundings.symm
  refine ⟨(rxByte b s).state, State.guardBuf_next _ _ hw, ?_, ?_⟩
  · have h := congrArg (fun t : State => { t with ownAddr := a }) hsame
    exact (hfeed { s with ownAddr := a }).trans (congrArg _ h)
  · have h := congrArg (fun t : State => { t with bcastAddr := a }) hsame
    exact (hfeed { s with bcastAddr := a }).trans (congrArg _ h)

end Sys2Proof.Machine
end

section
/-! ### What a `SEND` depends on (spec/20_memory.md R40, spec/10_state.md R17)

A `SEND` reads nothing of the receiver: from two states that are the same outside it, it has the same result and leaves
two such states. -/

namespace Sys2Proof.Machine

variable {s v t : State}

namespace SameOutsideReceiver

theorem txWrite (h : SameOutsideReceiver s v) (i : Nat) (b : Byte) :
    SameOutsideReceiver (s.txWrite i b) (v.txWrite i b) :=
  { h with txf := congrArg (Memory.write · i b) h.txf }

theorem txWriteAll (h : SameOutsideReceiver s v) (i : Nat) (bytes : List Byte) :
    SameOutsideReceiver (s.txWriteAll i bytes) (v.txWriteAll i bytes) := by
  induction bytes generalizing s v i with
  | nil => exact h
  | cons b rest ih => exact ih (h.txWrite i b) (i + 1)

theorem giveResult (h : SameOutsideReceiver s v) (r : CmdResult) :
    SameOutsideReceiver (s.giveResult r) (v.giveResult r) :=
  { h with resOut := congrArg (· ++ [r]) h.resOut }

theorem transmit (h : SameOutsideReceiver s v) (seq : List Byte) :
    SameOutsideReceiver (s.transmit seq) (v.transmit seq) :=
  { h with txOut := congrArg (· ++ [seq]) h.txOut }

/-- What is transmitted is read from `txf`, never from `buf`. -/
theorem txPrefix (h : SameOutsideReceiver s v) (k : Nat) : v.txPrefix k = s.txPrefix k :=
  State.txPrefix_congr s v k fun i _ => State.readTx_congr s v h.txf h.epoch i

theorem buildBody (h : SameOutsideReceiver s v) (dest type : Byte) (n : Half) (payload : List Byte) :
    SameOutsideReceiver (s.buildBody dest type n payload) (v.buildBody dest type n payload) := by
  rw [State.buildBody_eq, State.buildBody_eq, h.cfg, h.ownAddr]
  exact (h.txWriteAll 0 _).txWriteAll 8 payload

theorem appendCrc (h : SameOutsideReceiver s v) (n : Half) : SameOutsideReceiver (s.appendCrc n) (v.appendCrc n) := by
  rw [State.appendCrc, State.appendCrc, h.txPrefix]
  exact (h.txWrite _ _).txWrite _ _

theorem transmitTxf (h : SameOutsideReceiver s v) (n : Half) :
    SameOutsideReceiver (s.transmitTxf n) (v.transmitTxf n) := by
  rw [State.transmitTxf, State.transmitTxf, h.txPrefix]
  exact h.transmit _

theorem buildAndTransmit (h : SameOutsideReceiver s v) (dest type : Byte) (n : Half) (payload : List Byte) :
    SameOutsideReceiver (s.buildAndTransmit dest type n payload) (v.buildAndTransmit dest type n payload) :=
  ((h.buildBody dest type n payload).appendCrc n).transmitTxf n

theorem execSend_next {dest type : Byte} {n : Half} {p : Option (List Byte)} (h : SameOutsideReceiver s v)
    (hs : execSend dest type n p s = .next t) : ∃ w, execSend dest type n p v = .next w ∧ SameOutsideReceiver t w := by
  rw [execSend] at hs ⊢
  rw [h.cfg]
  split at hs
  · cases hs
    exact ⟨_, rfl, h.giveResult _⟩
  · cases hs
    exact ⟨_, rfl, h.giveResult _⟩
  · split at hs
    · rename_i hlong
      cases hs
      exact ⟨_, if_pos hlong, (h.buildAndTransmit dest type n _).giveResult _⟩
    · cases hs

end SameOutsideReceiver

/-- A `SEND` leaves the receiver as it was, in the surroundings it leaves behind. -/
theorem execSend_eq_inSurroundings {dest type : Byte} {n : Half} {p : Option (List Byte)}
    (h : execSend dest type n p s = .next t) : t = s.inSurroundings t := by
  rw [execSend_writes h]
  rfl

/-- A `SEND` writes no address register. -/
theorem execSend_sameAddresses {dest type : Byte} {n : Half} {p : Option (List Byte)}
    (h : execSend dest type n p s = .next t) : SameAddresses s t := by
  rw [execSend_writes h]
  exact ⟨rfl, rfl⟩

/-- Feeding a buffer answers a next state where there is room for a byte, or no byte. -/
theorem execFeedBuf_eq_of_room {data : List Byte} (h : data = [] ∨ s.widx < s.cfg.cap) :
    execFeedBuf data s = .next (rxAll data s) := by
  rcases h with rfl | h
  · rfl
  · exact execFeedBuf_eq data s h

end Sys2Proof.Machine

namespace Sys2Proof.Machine

/-- Settles O28: a `SEND` changes the surroundings of the receiver alone, and the receiver does not change what a
`SEND` reads. -/
theorem sendAndFeedCommute : Obligations.SendAndFeedCommute := by
  intro dest type n p data s t u hsend hfeed
  obtain ⟨hu, hroom⟩ := execFeedBuf_eq_next data t u hfeed
  obtain ⟨w, hw, hout⟩ := (rxAll_outside data s).execSend_next hsend
  have ht := execSend_eq_inSurroundings hsend
  rw [ht] at hroom
  refine ⟨rxAll data s, execFeedBuf_eq_of_room hroom, hw.trans (congrArg _ ?_)⟩
  calc w = w.inSurroundings t := hout.eq_inSurroundings
    _ = (rxAll data s).inSurroundings t := congrArg (·.inSurroundings t) (execSend_eq_inSurroundings hw)
    _ = rxAll data (s.inSurroundings t) := (rxAll_inSurroundings data (execSend_sameAddresses hsend)).symm
    _ = rxAll data t := by rw [← ht]
    _ = u := hu.symm

end Sys2Proof.Machine
end

section
/-! ### The command word (spec/30_encoding.md R56 to R59)

What the decoder reads of a command word, said once for each operation code, and which data operands it admits. -/

namespace Sys2Proof

variable {w : CmdWord} {data : List Byte}

@[simp] theorem withoutData_nil (i : Instr) : withoutData [] i = .ok i := rfl

theorem withoutData_eq_ok {i j : Instr} : withoutData data i = .ok j ↔ data = [] ∧ i = j := by
  cases data <;> simp [withoutData]

theorem withData_of_length {n : Half} (h : data.length = n.toNat) (i : Instr) : withData n data i = .ok i :=
  if_pos h

theorem withData_eq_ok {n : Half} {i j : Instr} : withData n data i = .ok j ↔ data.length = n.toNat ∧ i = j := by
  rw [withData]
  split <;> simp [*]

/-! #### One operation code after another (30_encoding.md R57) -/

@[simp] theorem decode_cmd (widx : Nat) (w : CmdWord) (data : List Byte) :
    decode widx (.cmd w data) = decodeCommand w data := rfl

@[simp] theorem decode_rxByte (widx : Nat) (b : Byte) :
    decode widx (.rxByte b) = .ok (decodePosition (positionOf widx) b) := rfl

theorem decodeCommand_reservedOp0 (h : opField w = 0) : decodeCommand w data = withoutData data .reservedOp0 := by
  rw [decodeCommand, h]
  rfl

theorem decodeCommand_setOwn (h : opField w = 1) : decodeCommand w data = withoutData data (.setOwn (aField w)) := by
  rw [decodeCommand, h]
  rfl

theorem decodeCommand_setBcast (h : opField w = 2) :
    decodeCommand w data = withoutData data (.setBcast (aField w)) := by
  rw [decodeCommand, h]
  rfl

theorem decodeCommand_feedByte (h : opField w = 3) :
    decodeCommand w data = withoutData data (.feedByte (aField w)) := by
  rw [decodeCommand, h]
  rfl

theorem decodeCommand_feedBuf (h : opField w = 4) :
    decodeCommand w data = withData (nField w) data (.feedBuf data) := by
  rw [decodeCommand, h]
  rfl

theorem decodeCommand_send (h : opField w = 5) (hpv : pvField w = 1) :
    decodeCommand w data = .ok (.send (aField w) (bField w) (nField w) (some data)) := by
  rw [decodeCommand, h]
  exact if_pos hpv

theorem decodeCommand_sendNone (h : opField w = 5) (hpv : ¬ pvField w = 1) :
    decodeCommand w data = withoutData data (.send (aField w) (bField w) (nField w) none) := by
  rw [decodeCommand, h]
  exact if_neg hpv

theorem decodeCommand_crc16 (h : opField w = 6) :
    decodeCommand w data = withData (nField w) data (.crc16 data) := by
  rw [decodeCommand, h]
  rfl

theorem decodeCommand_reservedOp7 (h : opField w = 7) : decodeCommand w data = withoutData data .reservedOp7 := by
  rw [decodeCommand, h]
  rfl

/-! #### Decode after encode -/

@[simp] theorem encode_decodePosition (p : Position) (b : Byte) : encode (decodePosition p b) = .rxByte b := by
  cases p <;> rfl

/-- The length field of a well-formed operation holds the length of its data operand (92 D19). -/
theorem length_eq_toNat_ofNat (h : data.length ≤ 65535) : data.length = (BitVec.ofNat 16 data.length).toNat := by
  rw [BitVec.toNat_ofNat, Nat.mod_eq_of_lt (by omega)]

theorem decode_encode_command {i : Instr} (hwf : i.wf = true) (hsel : i.selector = none) (widx : Nat) :
    decode widx (encode i) = .ok i := by
  cases i <;> simp only [Instr.selector, reduceCtorEq] at hsel <;> simp only [encode]
  case setOwn a => simp [decodeCommand_setOwn]
  case setBcast a => simp [decodeCommand_setBcast]
  case feedByte b => simp [decodeCommand_feedByte]
  case feedBuf data =>
    have hlen := length_eq_toNat_ofNat (by simpa [Instr.wf] using hwf)
    rw [decode_cmd, decodeCommand_feedBuf (opField_cmdWord ..), nField_cmdWord, withData_of_length hlen]
  case send dest type n payload =>
    cases payload with
    | none => simp [decodeCommand_sendNone]
    | some data => simp [decodeCommand_send]
  case crc16 data =>
    have hlen := length_eq_toNat_ofNat (by simpa [Instr.wf] using hwf)
    rw [decode_cmd, decodeCommand_crc16 (opField_cmdWord ..), nField_cmdWord, withData_of_length hlen]
  case reservedOp0 => simp [decodeCommand_reservedOp0]
  case reservedOp7 => simp [decodeCommand_reservedOp7]

end Sys2Proof

namespace Sys2Proof.Machine

/-- Settles O9: a command is read back from its word, a receiver transition from its byte and its selector. -/
theorem decodeOfEncodeIsTheOperation : Obligations.DecodeOfEncodeIsTheOperation := by
  intro i widx hwf hsel
  cases hs : i.selector with
  | none => exact decode_encode_command hwf hs widx
  | some p =>
    obtain ⟨b, rfl⟩ := eq_decodePosition_of_selector hs
    rw [encode_decodePosition, decode_rxByte, hsel p hs]

end Sys2Proof.Machine
end

section
/-! ### Every command word, and the data operands it admits (spec/30_encoding.md R56, R59) -/

namespace Sys2Proof

variable {w : CmdWord} {data : List Byte}

open BitVec in
/-- A command word is the concatenation of its fields (30_encoding.md R56). -/
theorem cmdWord_fields (w : CmdWord) : cmdWord (opField w) (pvField w) (aField w) (bField w) (nField w) = w := by
  rw [cmdWord, opField, pvField, aField, bField, nField,
    extractLsb'_append_extractLsb'_eq_extractLsb' (start₂ := 33) (start₁ := 32) rfl,
    extractLsb'_append_extractLsb'_eq_extractLsb' (start₂ := 32) (start₁ := 24) rfl,
    extractLsb'_append_extractLsb'_eq_extractLsb' (start₂ := 24) (start₁ := 16) rfl,
    extractLsb'_append_extractLsb'_eq_extractLsb' (start₂ := 16) (start₁ := 0) rfl]
  exact extractLsb'_eq_self

theorem opCode_cases (op : BitVec 3) :
    op = 0 ∨ op = 1 ∨ op = 2 ∨ op = 3 ∨ op = 4 ∨ op = 5 ∨ op = 6 ∨ op = 7 := by
  decide +revert

/-- The three forms of a command by the data operand R59 gives it: exactly `n` bytes, any bytes, or none. -/
inductive CommandForm (w : CmdWord) (data : List Byte) : Prop where
  | sized (i : Instr) (hop : opField w = 4 ∨ opField w = 6) (hwf : data.length ≤ 65535 → i.wf = true)
      (hsel : i.selector = none) (hd : decodeCommand w data = withData (nField w) data i)
  | any (i : Instr) (hop : opField w = 5) (hpv : pvField w = 1) (hwf : i.wf = true) (hsel : i.selector = none)
      (hd : decodeCommand w data = .ok i)
  | bare (i : Instr) (h4 : opField w ≠ 4) (h6 : opField w ≠ 6) (h5 : ¬ (opField w = 5 ∧ pvField w = 1))
      (hwf : i.wf = true) (hsel : i.selector = none) (hd : decodeCommand w data = withoutData data i)

theorem commandForm (w : CmdWord) (data : List Byte) : CommandForm w data := by
  have hbare : ∀ (op : BitVec 3) (i : Instr), opField w = op → op ≠ 4 ∧ op ≠ 5 ∧ op ≠ 6 → i.wf = true →
      i.selector = none → decodeCommand w data = withoutData data i → CommandForm w data := by
    rintro op i rfl ⟨h4, h5, h6⟩ hwf hsel hd
    exact .bare i h4 h6 (h5 ·.1) hwf hsel hd
  rcases opCode_cases (opField w) with h | h | h | h | h | h | h | h
  · exact hbare 0 _ h (by decide) rfl rfl (decodeCommand_reservedOp0 h)
  · exact hbare 1 _ h (by decide) rfl rfl (decodeCommand_setOwn h)
  · exact hbare 2 _ h (by decide) rfl rfl (decodeCommand_setBcast h)
  · exact hbare 3 _ h (by decide) rfl rfl (decodeCommand_feedByte h)
  · exact .sized _ (.inl h) decide_eq_true rfl (decodeCommand_feedBuf h)
  · by_cases hpv : pvField w = 1
    · exact .any _ h hpv rfl rfl (decodeCommand_send h hpv)
    · exact .bare _ (by simp [h]) (by simp [h]) (hpv ·.2) rfl rfl (decodeCommand_sendNone h hpv)
  · exact .sized _ (.inr h) decide_eq_true rfl (decodeCommand_crc16 h)
  · exact hbare 7 _ h (by decide) rfl rfl (decodeCommand_reservedOp7 h)

/-- What the decoder reads of a command word is well formed, and no receiver transition. -/
theorem wf_and_unselected_of_decodeCommand {i : Instr} (h : decodeCommand w data = .ok i) :
    i.wf = true ∧ i.selector = none := by
  cases commandForm w data with
  | sized j _ hwf hsel hd =>
    rw [hd, withData_eq_ok] at h
    obtain ⟨hlen, rfl⟩ := h
    exact ⟨hwf (by have := (nField w).isLt; omega), hsel⟩
  | any j _ _ hwf hsel hd =>
    rw [hd] at h
    cases h
    exact ⟨hwf, hsel⟩
  | bare j _ _ _ hwf hsel hd =>
    rw [hd, withoutData_eq_ok] at h
    obtain ⟨-, rfl⟩ := h
    exact ⟨hwf, hsel⟩

/-- A receiver transition that is decoded is the one the write index selects (30_encoding.md R61). -/
theorem wf_and_selected_of_decode {widx : Nat} {e : Encoded} {i : Instr} (h : decode widx e = .ok i) :
    i.wf = true ∧ ∀ p, i.selector = some p → positionOf widx = p := by
  cases e with
  | cmd w data =>
    obtain ⟨hwf, hsel⟩ := wf_and_unselected_of_decodeCommand h
    exact ⟨hwf, by simp [hsel]⟩
  | rxByte b =>
    cases h
    refine ⟨?_, by simp⟩
    cases positionOf widx <;> rfl

/-- The decoder accepts a command exactly with a data operand that R59 gives it. -/
theorem decodeCommand_accepts_iff (w : CmdWord) (data : List Byte) : (∃ i, decodeCommand w data = .ok i) ↔
    (((opField w = 4 ∨ opField w = 6) ∧ data.length = (nField w).toNat) ∨
      (opField w = 5 ∧ pvField w = 1) ∨
      ((opField w ≠ 4 ∧ opField w ≠ 6 ∧ ¬ (opField w = 5 ∧ pvField w = 1)) ∧ data = [])) := by
  cases commandForm w data with
  | sized j hop _ _ hd =>
    simp only [hd, withData_eq_ok, exists_and_left, exists_eq', and_true]
    refine ⟨fun hlen => .inl ⟨hop, hlen⟩, ?_⟩
    rintro (⟨-, hlen⟩ | ⟨h5, -⟩ | ⟨⟨h4, h6, -⟩, -⟩)
    · exact hlen
    · simp [h5] at hop
    · exact (hop.elim h4 h6).elim
  | any j hop hpv _ _ hd => exact iff_of_true ⟨j, hd⟩ (.inr (.inl ⟨hop, hpv⟩))
  | bare j h4 h6 h5 _ _ hd =>
    simp only [hd, withoutData_eq_ok, exists_and_left, exists_eq', and_true]
    refine ⟨fun hnil => .inr (.inr ⟨⟨h4, h6, h5⟩, hnil⟩), ?_⟩
    rintro (⟨hop, -⟩ | hany | ⟨-, hnil⟩)
    · exact (hop.elim h4 h6).elim
    · exact (h5 hany).elim
    · exact hnil

end Sys2Proof

namespace Sys2Proof.Machine

/-- Settles O10: the fields make up the word, and each operation code is read by them. -/
theorem everyCommandWordIsReadByItsFields : Obligations.EveryCommandWordIsReadByItsFields := by
  refine ⟨fun w => (cmdWord_fields w).symm, fun widx pv a b n data => ⟨?_, ?_, ?_, ?_, fun hlen => ?_, ?_, ?_,
    fun hlen => ?_, ?_⟩⟩
  · simp [decodeCommand_reservedOp0]
  · simp [decodeCommand_setOwn]
  · simp [decodeCommand_setBcast]
  · simp [decodeCommand_feedByte]
  · simp [decodeCommand_feedBuf, withData_of_length hlen]
  · simp [decodeCommand_sendNone]
  · simp [decodeCommand_send]
  · simp [decodeCommand_crc16, withData_of_length hlen]
  · simp [decodeCommand_reservedOp7]

/-- Settles O11: the three forms of a command, and every received byte. -/
theorem decoderAcceptsOnlyWhatTheEncodingsAdmit : Obligations.DecoderAcceptsOnlyWhatTheEncodingsAdmit :=
  ⟨fun _ _ _ h => wf_and_selected_of_decode h, fun _ => decodeCommand_accepts_iff, fun widx b => ⟨_, decode_rxByte widx b⟩,
    fun _ _ _ _ hcfg hp hd => step_badOperand hcfg hp hd⟩

end Sys2Proof.Machine
end

section
/-! ### When a step stops (spec/30_encoding.md R58, R59, spec/10_state.md R12) -/

namespace Sys2Proof.Machine

variable {s : State} {i : Instr} {f : Fault}

/-! #### Faults -/

/-- The one way feeding a buffer faults. -/
theorem execFeedBuf_fault {data : List Byte} (h : execFeedBuf data s = .fault f) : s.cfg.cap ≤ s.widx := by
  by_contra hw
  rw [execFeedBuf_eq data s (by omega)] at h
  cases h

theorem State.atPosition_fault {t : State} {p : Position} (h : s.atPosition p t = .fault f) : s.cfg.cap ≤ s.widx := by
  unfold State.atPosition at h
  split at h
  · exact State.guardBuf_fault _ _ _ h
  · cases h

theorem execSend_not_fault (dest type : Byte) (n : Half) (p : Option (List Byte)) :
    execSend dest type n p s ≠ .fault f := by
  rw [execSend]
  split
  · simp
  · simp
  · split <;> simp

/-- An operation faults only where the write index is no index of `buf` (10_state.md R12, log entry 10). -/
theorem exec_fault (h : exec i s = .fault f) : s.cfg.cap ≤ s.widx := by
  cases hs : i.selector with
  | some p =>
    obtain ⟨b, rfl⟩ := eq_decodePosition_of_selector hs
    rw [exec_decodePosition] at h
    exact State.atPosition_fault h
  | none =>
    cases i <;> simp only [Instr.selector, reduceCtorEq] at hs <;> simp only [exec] at h
    case setOwn a => cases h
    case setBcast a => cases h
    case feedByte b => exact State.guardBuf_fault _ _ _ h
    case feedBuf data => exact execFeedBuf_fault h
    case send dest type n p => exact absurd h (execSend_not_fault dest type n p)
    case crc16 data => cases h
    case reservedOp0 => cases h
    case reservedOp7 => cases h

/-- A step faults only in running an operation where the write index is no index of `buf`. -/
theorem step_fault (h : step s = .fault f) : s.cfg.cap ≤ s.widx := by
  unfold step at h
  split at h
  · split at h
    · cases h
    · cases h
    · split at h
      · cases h
      · exact (exec_fault h :)
  · cases h

/-! #### Refusals -/

/-- From a state with a well-formed configuration a step is refused only for a reserved code or for an operand that
does not exist: what is decoded runs at its position. -/
theorem step_refused_of_wf {r : Refusal} (hcfg : s.cfg.wf = true) (h : step s = .refused r) :
    r = .reservedOpcode 0 ∨ r = .reservedOpcode 7 ∨ r = .dataOperandShort ∨ ∃ e, r = .badDataOperand e := by
  cases step_refused_cases h with
  | illFormed hbad _ => exact absurd hcfg hbad
  | badOperand e rest err _ _ _ hr => exact .inr (.inr (.inr ⟨err, hr⟩))
  | ran e rest i _ _ hd hx =>
    cases exec_refused_cases hx with
    | reserved0 _ hr => exact .inl hr
    | reserved7 _ hr => exact .inr (.inl hr)
    | shortOperand _ _ _ _ _ _ _ hr => exact .inr (.inr (.inl hr))
    | outOfPosition p hi hp _ => exact absurd ((wf_and_selected_of_decode hd).2 p hi) hp

/-- The length check of `SEND` passes up to the maximum, and its second check where an operand is provided. -/
theorem sendCheck_some {cfg : Config} {n : Half} (hn : n.toNat ≤ cfg.maxPayload) (data : List Byte) :
    sendCheck cfg n (some data) = .ok := by
  rw [sendCheck, if_neg (by omega), if_neg (by simp)]

end Sys2Proof.Machine

namespace Sys2Proof.Machine

/-- Settles O6: in a state of the invariant there is room for a byte, and the decoder selects by the write index. -/
theorem reachableStepsStopOnlyOnReservedCodesAndImpossibleOperands :
    Obligations.ReachableStepsStopOnlyOnReservedCodesAndImpossibleOperands := by
  refine fun s hs => ⟨fun f hf => ?_, fun r hr => step_refused_of_wf hs.cfgOk hr⟩
  have hroom := hs.room
  have hout := step_fault hf
  omega

/-- Settles O3: the step of an input that decodes. -/
theorem stepRunsTheDecodedOperation : Obligations.StepRunsTheDecodedOperation :=
  fun _ _ _ _ hcfg hp hd => step_op hcfg hp hd

/-- Settles O12: such a word decodes to its reserved code, and the step runs that. -/
theorem reservedOperationCodesAreRefused : Obligations.ReservedOperationCodesAreRefused := by
  refine ⟨fun _ => rfl, fun _ => rfl, fun s w rest hcfg hp => ⟨fun h0 => ?_, fun h7 => ?_⟩⟩
  · rw [step_op hcfg hp (decodeCommand_reservedOp0 h0)]
    rfl
  · rw [step_op hcfg hp (decodeCommand_reservedOp7 h7)]
    rfl

/-- Settles O26: both checks pass and the operand is too short. -/
theorem sendWithTooShortAnOperandIsRefused : Obligations.SendWithTooShortAnOperandIsRefused := by
  intro dest type n data s hn hshort
  have hlong : payloadLongEnough n (some data) = false := decide_eq_false (Nat.not_le.2 hshort)
  simp only [exec, execSend, sendCheck_some hn, hlong, Bool.false_eq_true, if_false]

/-- Settles O8: each of the eleven inputs, decoded. -/
theorem wordsOfTheSpecDecodeToTheirCommands : Obligations.WordsOfTheSpecDecodeToTheirCommands :=
  ⟨rfl, rfl, rfl, rfl, rfl, rfl, rfl, rfl, rfl, rfl, rfl⟩

end Sys2Proof.Machine
end

section
/-! ### The wire frame (spec/30_encoding.md R50 to R53) -/

namespace Sys2Proof.Machine

/-- The big-endian length field holds the length of the payload (30_encoding.md R52). -/
theorem lengthField_toNat {payload : List Byte} (h : payload.length ≤ 65535) :
    (hiByte (BitVec.ofNat 16 payload.length)).toNat * 256 + (loByte (BitVec.ofNat 16 payload.length)).toNat =
      payload.length := by
  rw [← be16_toNat, be16_hiByte_loByte, ← length_eq_toNat_ofNat h]

/-- Settles O15: the body has the header's fields and the payload, and the checksum field follows the whole body. -/
theorem frameHasTheLayoutOfTheWireFormat : Obligations.FrameHasTheLayoutOfTheWireFormat := by
  intro cfg src tgt type payload hlen
  have hbody := frameBody_length cfg src tgt type payload
  refine ⟨wireFrame_length .., rfl, ⟨_, _, rfl, lengthField_toNat hlen⟩, ?_, ⟨_, _, ?_, be16_hiByte_loByte _⟩⟩
  · simp [wireFrame, frameBody]
  · rw [wireFrame, List.drop_left' hbody, List.take_left' hbody]
    rfl

end Sys2Proof.Machine
end

section
/-! ### Whole frames (spec/42_frame_receiver.md R90, R111 (b))

A frame that begins at write index 0 is accumulated byte by byte, and its last byte ends it: what has been received of it
so far is a predicate of its own, kept by each byte. -/

namespace Sys2Proof.Machine

variable {s t u : State} {f : List Byte} {d : Half}

theorem SameOutsideReceiver.trans (h : SameOutsideReceiver s t) (h' : SameOutsideReceiver t u) :
    SameOutsideReceiver s u :=
  ⟨h'.cfg.trans h.cfg, h'.ownAddr.trans h.ownAddr, h'.bcastAddr.trans h.bcastAddr, h'.txf.trans h.txf,
    h'.txOut.trans h.txOut, h'.resOut.trans h.resOut, h'.pending.trans h.pending, h'.epoch.trans h.epoch⟩

theorem State.latchLength_outside (s : State) : SameOutsideReceiver s s.latchLength := by
  constructor <;> rfl

theorem State.deliver_outside (s : State) (seq : List Byte) : SameOutsideReceiver s (s.deliver seq) := by
  constructor <;> rfl

/-- Since `s`, exactly the bytes `f` have been accumulated, with nothing delivered; the declared length is `d`. -/
structure Accumulating (s : State) (f : List Byte) (d : Half) (t : State) : Prop where
  outside : SameOutsideReceiver s t
  rxOut : t.rxOut = s.rxOut
  widx : t.widx = f.length
  dlen : t.dlen = d
  bytes : t.bufPrefix f.length = f

/-- Since `s`, the frame begun there has ended with these deliveries, and the receiver is in its initial position. -/
structure FrameEnded (s : State) (delivered : List (List Byte)) (t : State) : Prop where
  outside : SameOutsideReceiver s t
  rxOut : t.rxOut = s.rxOut ++ delivered
  widx : t.widx = 0
  dlen : t.dlen = 0

/-- The parse reset ends a frame (42_frame_receiver.md R92). -/
theorem State.rxReset_frameEnded {delivered : List (List Byte)} (hout : SameOutsideReceiver s t)
    (hrx : t.rxOut = s.rxOut ++ delivered) : FrameEnded s delivered t.rxReset :=
  ⟨hout.trans t.rxReset_dropped.outside, hrx, rfl, rfl⟩

namespace Accumulating

theorem start (hw : s.widx = 0) : Accumulating s [] s.dlen s :=
  ⟨by constructor <;> rfl, rfl, hw, rfl, rfl⟩

/-! #### What has been accumulated, read back -/

theorem readBuf (h : Accumulating s f d t) {i : Nat} {b : Byte} (hi : f[i]? = some b) : t.readBuf i = b := by
  obtain ⟨hlt, rfl⟩ := List.getElem?_eq_some_iff.1 hi
  have hread := congrArg (·[i]?) h.bytes
  simpa [State.bufPrefix, hlt] using hread

theorem bufPrefix (h : Accumulating s f d t) {k : Nat} (hk : k ≤ f.length) : t.bufPrefix k = f.take k := by
  rw [← congrArg (List.take k) h.bytes, State.bufPrefix, State.bufPrefix, ← List.map_take, List.take_range,
    Nat.min_eq_left hk]

/-! #### One more byte -/

theorem append (h : Accumulating s f d t) (b : Byte) (hroom : f.length + 1 < s.cfg.cap) :
    Accumulating s (f ++ [b]) d (t.append b) := by
  obtain ⟨hout, hrx, hw, hd, hbytes⟩ := h
  refine ⟨hout.trans (t.append_outside b), hrx, ?_, hd, ?_⟩
  · rw [State.append_widx_of_room t b (by rw [hw, hout.cfg]; exact hroom), hw, List.length_append, List.length_singleton]
  · rw [List.length_append, List.length_singleton, ← hw, State.bufPrefix_append, hw, hbytes]

/-- A byte that is accepted as it comes is accumulated. -/
theorem accepted (h : Accumulating s f d t) {b : Byte} (hb : rxByte b t = (t.append b).accept)
    (hroom : f.length + 1 < s.cfg.cap) : Accumulating s (f ++ [b]) d (rxByte b t).state := by
  rw [hb]
  exact h.append b hroom

/-- The expected byte at a preamble position (42_frame_receiver.md R93 to R95). -/
theorem preamble (h : Accumulating s f d t) (h3 : f.length < 3) (hroom : f.length + 1 < s.cfg.cap) :
    Accumulating s (f ++ [s.cfg.preambleAt f.length]) d (rxByte (s.cfg.preambleAt f.length) t).state := by
  refine h.accepted ?_ hroom
  rw [rxByte_preamble (h.widx.trans_lt h3), h.widx, h.outside.cfg]
  exact if_pos rfl

/-- A run of bytes at positions where every byte is accepted. -/
theorem rxAll_accepted (h : Accumulating s f d t) (bytes : List Byte) (hroom : f.length + bytes.length < s.cfg.cap)
    (haccept : ∀ (u : State) (b : Byte), u.dlen = d → f.length ≤ u.widx → u.widx < f.length + bytes.length →
      rxByte b u = (u.append b).accept) : Accumulating s (f ++ bytes) d (rxAll bytes t) := by
  induction bytes generalizing f t with
  | nil => rwa [List.append_nil]
  | cons b rest ih =>
    have hlen : (f ++ [b]).length = f.length + 1 := List.length_append
    rw [List.length_cons] at hroom haccept
    have hb := h.accepted (haccept t b h.dlen h.widx.ge (by rw [h.widx]; omega)) (by omega)
    rw [List.append_cons]
    exact ih hb (by omega) fun u b hd hge hlt => haccept u b hd (by omega) (by omega)

/-- The length-low byte of an acceptable length (42_frame_receiver.md R100). -/
theorem lengthLow {hi lo : Byte} (h : Accumulating s f d t) (h7 : f.length = 7) (hhi : f[6]? = some hi)
    (hlen : (be16 hi lo).toNat ≤ s.cfg.maxPayload) (hroom : 8 < s.cfg.cap) :
    Accumulating s (f ++ [lo]) (be16 hi lo) (rxByte lo t).state := by
  have hw : t.widx = 7 := h.widx.trans h7
  have hlatch : (t.append lo).latchLength.dlen = be16 hi lo := by rw [State.latched_dlen t lo hw, h.readBuf hhi]
  have hfits : (t.append lo).latchLength.lengthOversize = false := by
    rw [State.lengthOversize, hlatch, State.latchLength_cfg, State.append_cfg, h.outside.cfg]
    exact decide_eq_false (Nat.not_lt.2 hlen)
  obtain ⟨hout, hrx, hwidx, -, hbytes⟩ := h.append lo (by omega)
  rw [rxByte_lengthLow hw, State.checkLength, hfits]
  exact ⟨hout.trans (State.latchLength_outside _), hrx, hwidx, hlatch, hbytes⟩

/-- What validation tests at the last byte of a frame, and what it would deliver (42_frame_receiver.md R102 to R107). -/
theorem tests_at_last {body : List Byte} {hi tgt : Byte} (h : Accumulating s (body ++ [hi]) d t)
    (hlen : body.length = 8 + d.toNat) (htgt : body[4]? = some tgt) (hroom : 9 + d.toNat < s.cfg.cap) (lo : Byte) :
    (t.append lo).crcIndexOutside = false ∧
    (t.append lo).expectedCrc = crc16 body ∧
    (t.append lo).receivedCrc = be16 hi lo ∧
    ((t.append lo).addressMatches = true ↔ tgt = s.ownAddr ∨ tgt = s.bcastAddr) ∧
    (t.append lo).bufPrefix (10 + d.toNat) = body ++ [hi, lo] := by
  have hlength : (body ++ [hi]).length = 9 + d.toNat := by rw [List.length_append, hlen, List.length_singleton]; omega
  have hw : t.widx = 9 + t.dlen.toNat := by rw [h.widx, h.dlen, hlength]
  obtain ⟨hinside, hexpected, hreceived, haddr, hframe⟩ :=
    State.append_last t lo (by omega) hw (by rw [h.outside.cfg, h.widx, hlength]; exact hroom)
  rw [h.dlen] at hexpected hreceived hframe
  refine ⟨hinside, ?_, ?_, ?_, ?_⟩
  · rw [hexpected, h.bufPrefix (by omega), List.take_left' hlen]
  · rw [hreceived, h.readBuf (b := hi) (by simp [← hlen])]
  · rw [haddr, h.readBuf (b := tgt) (by rw [List.getElem?_append_left (by omega), htgt]), h.outside.ownAddr,
      h.outside.bcastAddr, Bool.or_eq_true, beq_iff_eq, beq_iff_eq]
  · rw [hframe, h.bufPrefix hlength.ge, List.take_of_length_le hlength.le, List.append_assoc, List.singleton_append]

/-- The last byte of a frame: the frame is delivered exactly when its checksum is right and its target is one of the two
addresses. -/
theorem last {body : List Byte} {hi tgt : Byte} (h : Accumulating s (body ++ [hi]) d t)
    (hlen : body.length = 8 + d.toNat) (htgt : body[4]? = some tgt) (hroom : 9 + d.toNat < s.cfg.cap) (lo : Byte) :
    FrameEnded s (if be16 hi lo = crc16 body ∧ (tgt = s.ownAddr ∨ tgt = s.bcastAddr) then [body ++ [hi, lo]] else [])
      (rxByte lo t).state := by
  obtain ⟨hinside, hexpected, hreceived, haddr, hframe⟩ := h.tests_at_last hlen htgt hroom lo
  have hw : t.widx = 9 + t.dlen.toNat := by
    rw [h.widx, h.dlen, List.length_append, hlen, List.length_singleton]
    omega
  have hout := h.outside.trans (t.append_outside lo)
  have hrx : (t.append lo).rxOut = s.rxOut ++ [] := h.rxOut.trans (List.append_nil _).symm
  rw [rxByte_of_ge lo t (by omega), rxAcc_complete lo t hw]
  rcases (t.append lo).validate_cases with ⟨hbad, _⟩ | ⟨_, hcrc, hv⟩ | ⟨_, _, hother, hv⟩ | ⟨_, hcrc, hhere, hv⟩
  · rw [hinside] at hbad
    cases hbad
  · rw [hexpected, hreceived] at hcrc
    rw [hv, if_neg fun hc => hcrc hc.1.symm]
    exact State.rxReset_frameEnded hout hrx
  · rw [← Bool.not_eq_true, haddr] at hother
    rw [hv, if_neg fun hc => hother hc.2]
    exact State.rxReset_frameEnded hout hrx
  · rw [hexpected, hreceived] at hcrc
    rw [hv, if_pos ⟨hcrc.symm, haddr.1 hhere⟩]
    refine State.rxReset_frameEnded (hout.trans (State.deliver_outside _ _)) ?_
    rw [State.deliver_rxOut, State.append_rxOut, State.append_dlen, h.rxOut, h.dlen, hframe]

end Accumulating

/-! #### A frame from its first byte -/

section
variable (hcfg : s.cfg.wf = true) (hw : s.widx = 0)
include hcfg hw

/-- The first eight bytes of a frame, up to its latched length. -/
theorem accumulating_header (src tgt type : Byte) {n : Half} (hn : n.toNat ≤ s.cfg.maxPayload) :
    Accumulating s [s.cfg.preamble0, s.cfg.preamble1, s.cfg.preamble2, src, tgt, type, hiByte n, loByte n] n
      (rxAll [s.cfg.preamble0, s.cfg.preamble1, s.cfg.preamble2, src, tgt, type, hiByte n, loByte n] s) := by
  have hcap := (Config.wf_bounds hcfg).2
  have h1 := (Accumulating.start hw).preamble (by simp) (by simp; omega)
  have h2 := h1.preamble (by simp) (by simp; omega)
  have h3 := h2.preamble (by simp) (by simp; omega)
  have h7 := h3.rxAll_accepted [src, tgt, type, hiByte n] (by simp; omega)
    fun u b _ hge hlt => rxByte_unchecked hge hlt
  have h8 := h7.lengthLow (hi := hiByte n) (lo := loByte n) rfl rfl (by simpa using hn) (by omega)
  rwa [be16_hiByte_loByte] at h8

variable (src tgt type : Byte) {payload : List Byte} (hp : payload.length ≤ s.cfg.maxPayload)
include hp

/-- All of a frame but its last byte (42_frame_receiver.md R101). -/
theorem accumulating_frameBody (hi : Byte) :
    Accumulating s (frameBody s.cfg src tgt type payload ++ [hi]) (BitVec.ofNat 16 payload.length)
      (rxAll (frameBody s.cfg src tgt type payload ++ [hi]) s) := by
  obtain ⟨hmax, hcap⟩ := Config.wf_bounds hcfg
  have hn := length_eq_toNat_ofNat (hp.trans hmax)
  have hhead := accumulating_header hcfg hw src tgt type (hn ▸ hp)
  have hall := hhead.rxAll_accepted (payload ++ [hi]) (by simp; omega) fun u b hd hge hlt => by
    simp only [List.length_cons, List.length_nil, List.length_append] at hge hlt
    rw [rxByte_of_ge b u hge, rxAcc_incomplete b u (by rw [hd, ← hn]; omega)]
  rw [frameBody, List.append_assoc, rxAll_append]
  exact hall

/-- A whole frame with any checksum field. -/
theorem rxAll_frameBody_frameEnded (hi lo : Byte) :
    FrameEnded s
      (if be16 hi lo = crc16 (frameBody s.cfg src tgt type payload) ∧ (tgt = s.ownAddr ∨ tgt = s.bcastAddr)
        then [frameBody s.cfg src tgt type payload ++ [hi, lo]] else [])
      (rxAll (frameBody s.cfg src tgt type payload ++ [hi, lo]) s) := by
  obtain ⟨hmax, hcap⟩ := Config.wf_bounds hcfg
  have hn := length_eq_toNat_ofNat (hp.trans hmax)
  have hlast := (accumulating_frameBody hcfg hw src tgt type hp hi).last
    (by rw [frameBody_length, ← hn]) rfl (by omega) lo
  have hrun : rxAll (frameBody s.cfg src tgt type payload ++ [hi, lo]) s =
      (rxByte lo (rxAll (frameBody s.cfg src tgt type payload ++ [hi]) s)).state := by
    rw [List.append_cons, rxAll_append]
    rfl
  exact hrun ▸ hlast

/-- A wire frame addressed to this node is delivered whole. -/
theorem rxAll_wireFrame_frameEnded (haddr : tgt = s.ownAddr ∨ tgt = s.bcastAddr) :
    FrameEnded s [wireFrame s.cfg src tgt type payload] (rxAll (wireFrame s.cfg src tgt type payload) s) := by
  have hend := rxAll_frameBody_frameEnded hcfg hw src tgt type hp
    (hiByte (crc16 (frameBody s.cfg src tgt type payload))) (loByte (crc16 (frameBody s.cfg src tgt type payload)))
  rwa [if_pos ⟨be16_hiByte_loByte _, haddr⟩] at hend

end

end Sys2Proof.Machine

namespace Sys2Proof.Machine

/-- Settles O51: the first frame ends in the initial position, with the same parameters and addresses, where the second
begins. -/
theorem framesBackToBackAreBothDelivered : Obligations.FramesBackToBackAreBothDelivered := by
  intro s src1 tgt1 type1 src2 tgt2 type2 p1 p2 hcfg hw hp1 hp2 ha1 ha2
  have hroom : s.widx < s.cfg.cap := by have := Config.wf_bounds hcfg; omega
  obtain ⟨hout, hrx1, hw1, -⟩ := rxAll_wireFrame_frameEnded hcfg hw src1 tgt1 type1 hp1 ha1
  rw [← hout.cfg] at hcfg hp2
  rw [← hout.ownAddr, ← hout.bcastAddr] at ha2
  obtain ⟨-, hrx2, hw2, -⟩ := rxAll_wireFrame_frameEnded hcfg hw1 src2 tgt2 type2 hp2 ha2
  rw [hout.cfg] at hrx2 hw2
  refine ⟨_, execFeedBuf_eq _ _ hroom, ?_, ?_⟩
  · rw [rxAll_append, hrx2, hrx1, List.append_assoc, List.singleton_append]
  · rw [rxAll_append, hw2]

end Sys2Proof.Machine
end

section
/-! ### The CRC-16 module (spec/40_crc16.md)

One shift is said bit by bit. That it is linear and injective follows from its bits; the byte step takes both over by the
recursion of `crcShifts`, as it does that no bit is flipped while only clear bits are shifted out. -/

namespace Sys2Proof.Machine

/-! #### The bits of the operands -/

/-- `CRC_POLY` is the bits 15, 13 and 0. -/
theorem crcPoly_getLsbD : ∀ i < 16, crcPoly.getLsbD i = (i == 15 || i == 13 || i == 0) := by decide

theorem be16_getLsbD (h l : Byte) (i : Nat) :
    (be16 h l).getLsbD i = if i < 8 then l.getLsbD i else h.getLsbD (i - 8) := BitVec.getLsbD_append

theorem zext16_xor (b1 b2 : Byte) : zext16 (b1 ^^^ b2) = zext16 b1 ^^^ zext16 b2 := BitVec.setWidth_xor

/-- The byte is combined with the low byte alone. -/
theorem xor_zext16 (c : Half) (b : Byte) : c ^^^ zext16 b = be16 (hiByte c) (loByte c ^^^ b) := by
  refine BitVec.eq_of_getLsbD_eq fun i hi => ?_
  simp only [zext16, hiByte, loByte, be16_getLsbD, BitVec.getLsbD_xor, BitVec.getLsbD_setWidth,
    BitVec.getLsbD_extractLsb']
  by_cases h8 : i < 8
  · simp [h8, hi]
  · have hsum : 8 + (i - 8) = i := by omega
    have hlt : i - 8 < 8 := by omega
    simp [h8, hsum, hlt, BitVec.getLsbD_of_ge b i (by omega)]

/-! #### One shift -/

theorem crcShift_of_low_clear {c : Half} (h : c.getLsbD 0 = false) : crcShift c = c >>> 1 :=
  if_neg (Bool.eq_false_iff.1 h)

theorem crcShift_of_low_set {c : Half} (h : c.getLsbD 0 = true) : crcShift c = (c >>> 1) ^^^ crcPoly := if_pos h

theorem crcShift_getLsbD (c : Half) {i : Nat} (hi : i < 16) :
    (crcShift c).getLsbD i = (c.getLsbD (i + 1) ^^ (c.getLsbD 0 && (i == 15 || i == 13 || i == 0))) := by
  rw [← crcPoly_getLsbD i hi, Nat.add_comm i 1]
  cases h0 : c.getLsbD 0 with
  | false => simp [crcShift_of_low_clear h0]
  | true => simp [crcShift_of_low_set h0]

theorem crcShift_xor (c1 c2 : Half) : crcShift (c1 ^^^ c2) = crcShift c1 ^^^ crcShift c2 := by
  refine BitVec.eq_of_getLsbD_eq fun i hi => ?_
  simp only [BitVec.getLsbD_xor, crcShift_getLsbD _ hi, Bool.and_xor_distrib_right, Bool.xor_assoc, Bool.xor_left_comm]

/-- Bit 15 of the result tells the bit that was shifted out, and with it every other bit tells its neighbour. -/
theorem crcShift_injective : Function.Injective crcShift := by
  intro c1 c2 h
  have hbit (i : Nat) (hi : i < 16) :
      (c1.getLsbD (i + 1) ^^ (c1.getLsbD 0 && (i == 15 || i == 13 || i == 0))) =
        (c2.getLsbD (i + 1) ^^ (c2.getLsbD 0 && (i == 15 || i == 13 || i == 0))) := by
    rw [← crcShift_getLsbD c1 hi, ← crcShift_getLsbD c2 hi, h]
  have h0 : c1.getLsbD 0 = c2.getLsbD 0 := by simpa using hbit 15 (by omega)
  refine BitVec.eq_of_getLsbD_eq fun i hi => ?_
  cases i with
  | zero => exact h0
  | succ j =>
    have hj := hbit j (by omega)
    rw [h0] at hj
    exact Bool.xor_left_inj.1 hj

/-! #### Repeated shifts -/

theorem crcShifts_eq_iterate (k : Nat) (c : Half) : crcShifts k c = crcShift^[k] c := by
  induction k generalizing c with
  | zero => rfl
  | succ k ih => exact ih (crcShift c)

theorem crcShifts_xor (k : Nat) (c1 c2 : Half) : crcShifts k (c1 ^^^ c2) = crcShifts k c1 ^^^ crcShifts k c2 := by
  induction k generalizing c1 c2 with
  | zero => rfl
  | succ k ih => rw [crcShifts, crcShift_xor, ih, crcShifts, crcShifts]

theorem crcShifts_injective (k : Nat) : Function.Injective (crcShifts k) := by
  rw [funext (crcShifts_eq_iterate k)]
  exact crcShift_injective.iterate k

/-- While only clear bits are shifted out, nothing is flipped. -/
theorem crcShifts_of_low_clear {k : Nat} {c : Half} (h : ∀ i < k, c.getLsbD i = false) : crcShifts k c = c >>> k := by
  induction k generalizing c with
  | zero => simp [crcShifts]
  | succ k ih =>
    have hshifted : ∀ i < k, (c >>> 1).getLsbD i = false := fun i hi => by
      rw [BitVec.getLsbD_ushiftRight, Nat.add_comm]
      exact h (i + 1) (by omega)
    rw [crcShifts, crcShift_of_low_clear (h 0 (by omega)), ih hshifted, ← BitVec.shiftRight_add, Nat.add_comm]

/-! #### The byte step -/

/-- A byte equal to the low byte clears it: the step moves the high byte down. -/
theorem crcStep_loByte (c : Half) : crcStep c (loByte c) = zext16 (hiByte c) := by
  have hclear : ∀ i < 8, (be16 (hiByte c) 0#8).getLsbD i = false := fun i hi => by
    rw [be16_getLsbD, if_pos hi, BitVec.getLsbD_zero]
  rw [crcStep, xor_zext16, BitVec.xor_self, crcShifts_of_low_clear hclear]
  refine BitVec.eq_of_getLsbD_eq fun i hi => ?_
  simp [zext16, be16_getLsbD, hi]

theorem crcStep_zext16_self (b : Byte) : crcStep (zext16 b) b = 0#16 := by
  rw [crcStep, BitVec.xor_self]
  exact (crcShifts_of_low_clear (by simp)).trans (by simp)

theorem crc16_append (x y : List Byte) : crc16 (x ++ y) = crcFrom (crc16 x) y := crcFrom_append crcInit x y

end Sys2Proof.Machine

namespace Sys2Proof.Machine

/-- Settles O16: the bits of one shift, and the byte step as the iterate of it. -/
theorem crcByteStepShiftsEightTimes : Obligations.CrcByteStepShiftsEightTimes := by
  refine ⟨fun c i hi => crcShift_getLsbD c hi, fun c b => ?_⟩
  rw [crcStep, crcShifts_eq_iterate, xor_zext16]

/-- Settles O18: every shift is linear and injective, and the byte is combined by XOR. -/
theorem crcByteStepIsLinearAndInjective : Obligations.CrcByteStepIsLinearAndInjective := by
  constructor
  · intro c1 c2 b1 b2
    rw [crcStep, crcStep, crcStep, ← crcShifts_xor, zext16_xor]
    congr 1
    ac_rfl
  · intro c1 c2 b h
    exact (BitVec.xor_left_inj _).1 (crcShifts_injective 8 h)

/-- Settles O19: the low byte first cancels the low byte and moves the high byte down, which the second byte cancels; in
the frame's order the one byte `00` leaves a residue. -/
theorem zeroResidueNeedsLowByteFirst : Obligations.ZeroResidueNeedsLowByteFirst := by
  refine ⟨fun x => ?_, [0x00], by decide +kernel⟩
  rw [crc16_append, crcFrom, crcFrom, crcFrom, crcStep_loByte, crcStep_zext16_self]

/-- Settles O17: the checksum is a left fold; its value on the example is computed. -/
theorem crcFoldsTheByteStepFromAllOnes : Obligations.CrcFoldsTheByteStepFromAllOnes :=
  ⟨rfl, fun x b => crc16_append x [b], crc16_append, by decide +kernel⟩

/-- Settles O20: the command does nothing but give its result. -/
theorem crc16CommandReturnsTheChecksum : Obligations.Crc16CommandReturnsTheChecksum :=
  fun _ _ => rfl

end Sys2Proof.Machine
end

section
/-! ### The outcome of a `SEND` (spec/41_frame_serializer.md R80, R81)

What the two checks answer, each under its condition, and what a `SEND` does under each answer. -/

namespace Sys2Proof.Machine

variable {cfg : Config} {s : State} {n : Half} {p : Option (List Byte)}

/-! #### The checks and the payload operand -/

theorem sendCheck_illegalLength (h : cfg.maxPayload < n.toNat) (p : Option (List Byte)) :
    sendCheck cfg n p = .illegalLength := if_pos h

theorem sendCheck_nullPayload (hn : n.toNat ≤ cfg.maxPayload) (hpos : 0 < n.toNat) :
    sendCheck cfg n none = .nullPayload := by
  rw [sendCheck, if_neg (by omega), if_pos ⟨hpos, rfl⟩]

theorem sendCheck_ok (hn : n.toNat ≤ cfg.maxPayload) (hp : 0 < n.toNat → p ≠ none) : sendCheck cfg n p = .ok := by
  rw [sendCheck, if_neg (by omega), if_neg fun ⟨hpos, hnone⟩ => hp hpos hnone]

/-- The absent operand holds no bytes (30_encoding.md R59). -/
theorem payloadBytes_eq_getD (p : Option (List Byte)) : payloadBytes p = p.getD [] := by
  cases p <;> rfl

/-! #### What the command does under each answer -/

theorem execSend_illegalLength (dest type : Byte) (h : sendCheck s.cfg n p = .illegalLength) :
    execSend dest type n p s = .next (s.giveResult (.send .illegalLength)) := by
  rw [execSend, h]

theorem execSend_nullPayload (dest type : Byte) (h : sendCheck s.cfg n p = .nullPayload) :
    execSend dest type n p s = .next (s.giveResult (.send .nullPayload)) := by
  rw [execSend, h]

theorem execSend_ok (dest type : Byte) (h : sendCheck s.cfg n p = .ok) (hlong : payloadLongEnough n p = true) :
    execSend dest type n p s =
      .next ((s.buildAndTransmit dest type n (payloadRead n p)).giveResult (.send .ok)) := by
  rw [execSend, h]
  exact if_pos hlong

/-! #### What building a frame leaves of `txf` -/

theorem State.readTx_txWriteAll_beyond (s : State) {i k : Nat} {bytes : List Byte} (hi : k + bytes.length ≤ i) :
    (s.txWriteAll k bytes).readTx i = s.readTx i := by
  rw [State.readTx_txWriteAll, if_pos (by omega), List.getElem?_eq_none (by omega), Option.getD_none]

theorem State.readTx_appendCrc_beyond (s : State) {i : Nat} (hi : 10 + n.toNat ≤ i) :
    (s.appendCrc n).readTx i = s.readTx i := by
  rw [State.appendCrc, State.readTx_txWrite, State.readTx_txWrite, if_neg (by omega), if_neg (by omega)]

/-- The frame fills indices 0..`9 + n` of `txf`: the bytes beyond it keep their values (10_state.md R17). -/
theorem State.readTx_buildAndTransmit_beyond (s : State) (dest type : Byte) {payload : List Byte}
    (hlen : n.toNat = payload.length) {i : Nat} (hi : 10 + n.toNat ≤ i) :
    (s.buildAndTransmit dest type n payload).readTx i = s.readTx i := by
  rw [State.buildAndTransmit, State.transmitTxf, State.readTx_transmit, State.readTx_appendCrc_beyond _ hi,
    State.buildBody_eq, State.readTx_txWriteAll_beyond _ (by omega),
    State.readTx_txWriteAll_beyond _ (by simp only [List.length_cons, List.length_nil]; omega)]

end Sys2Proof.Machine

namespace Sys2Proof.Machine

/-- Settles O27: the frame built in `txf` is the wire frame, and building it writes `txf` below `10 + n` alone. -/
theorem sendTransmitsTheFrameOnce : Obligations.SendTransmitsTheFrameOnce := by
  intro dest type n p s hn hp hlong
  rw [← payloadBytes_eq_getD] at hlong ⊢
  have hlen : n.toNat = (payloadRead n p).length := payloadRead_length (decide_eq_true hlong)
  have hsend := execSend_ok dest type (sendCheck_ok hn hp) (decide_eq_true hlong)
  have hbuilt := s.buildAndTransmit_eq dest type hlen
  refine ⟨_, hsend, congrArg State.txOut hbuilt, ?_, ?_, execSend_writes hsend,
    fun i hi => s.readTx_buildAndTransmit_beyond dest type hlen hi⟩
  · exact (wireFrame_length ..).trans (congrArg (10 + ·) hlen.symm)
  · exact congrArg (·.resOut ++ [CmdResult.send .ok]) hbuilt

/-- Settles O25: the length is checked first, then the presence of a payload. -/
theorem sendReportsIllegalLengthThenNullPayload : Obligations.SendReportsIllegalLengthThenNullPayload := by
  refine ⟨fun dest type n p s => ⟨fun hlong => ?_, fun hn hpos hnone => ?_⟩, rfl, rfl, rfl⟩
  · exact execSend_illegalLength dest type (sendCheck_illegalLength hlong p)
  · subst hnone
    exact execSend_nullPayload dest type (sendCheck_nullPayload hn hpos)

end Sys2Proof.Machine
end

section
/-! ### One byte fed to the receiver (spec/42_frame_receiver.md R90)

Inside the buffer `FEED_BYTE` and the row of the selected transition do the same, and always complete; what the byte can
do to the receive trace and to the buffer is said once. -/

namespace Sys2Proof.Machine

variable {s : State}

theorem exec_feedByte (b : Byte) (hw : s.widx < s.cfg.cap) : exec (.feedByte b) s = .next (rxByte b s).state :=
  State.guardBuf_next s _ hw

theorem exec_feedBuf (data : List Byte) (hw : s.widx < s.cfg.cap) : exec (.feedBuf data) s = .next (rxAll data s) :=
  execFeedBuf_eq data s hw

/-- `FEED_BYTE` is the row that `widx` selects, where it stops too (30_encoding.md R61). -/
theorem exec_decodePosition_selected (b : Byte) (s : State) :
    exec (decodePosition (positionOf s.widx) b) s = exec (.feedByte b) s := by
  rw [exec_decodePosition, State.atPosition, if_pos rfl]
  rfl

theorem exec_selected_next (b : Byte) (hw : s.widx < s.cfg.cap) :
    exec (decodePosition (positionOf s.widx) b) s = .next (rxByte b s).state := by
  rw [exec_decodePosition_selected, exec_feedByte b hw]

theorem exec_rxAcc (b : Byte) (h8 : 8 ≤ s.widx) (hw : s.widx < s.cfg.cap) :
    exec (.rxAcc b) s = .next (rxAcc b s).state := by
  have h := exec_selected_next b hw
  rwa [positionOf_of_ge _ h8, rxByte_of_ge b s h8] at h

/-- What is presented first is what the step runs. -/
theorem step_presented (hcfg : s.cfg.wf = true) (rest : List Input) {e : Encoded} {i : Instr}
    (hd : decode s.widx e = .ok i) : step { s with pending := .op e :: rest } = exec i { s with pending := rest } :=
  step_op (s := { s with pending := .op e :: rest }) hcfg rfl hd

/-- A byte fed at write index 0 to 7 finds room in a buffer of 11 bytes or more (00_scope.md R6). -/
theorem State.room_of_header (hcfg : s.cfg.wf = true) (hw : s.widx < 8) : s.widx + 1 < s.cfg.cap := by
  have := Config.wf_bounds hcfg
  omega

/-- A byte is stored at `widx` or nowhere. -/
theorem rxByte_sameBufBut (b : Byte) (s : State) : SameBufBut s.widx s (rxByte b s).state := by
  have hepoch := (rxByte_outside b s).epoch
  intro j hj
  rcases rxByte_buf b s with hbuf | hbuf
  · exact State.readBuf_congr s _ hbuf hepoch j
  · exact (State.readBuf_congr (s.append b) _ hbuf hepoch j).trans (s.append_sameBufBut b j hj)

/-- A byte delivers nothing and moves `widx` on by one at most; or it completes a frame, delivers one sequence and returns
`widx` to 0. -/
inductive RxDelivery (s t : State) : Prop where
  | silent (hrx : t.rxOut = s.rxOut) (hw : t.widx ≤ s.widx + 1)
  | delivered (f : List Byte) (hrx : t.rxOut = s.rxOut ++ [f]) (hlast : s.AtLastByte) (hw : t.widx = 0)

theorem rxByte_delivery (b : Byte) (s : State) : RxDelivery s (rxByte b s).state := by
  have hmod : (s.append b).widx ≤ s.widx + 1 := Nat.mod_le _ _
  cases rxByte_cases b s with
  | appended h => rw [h]; exact .silent rfl hmod
  | latched _ h _ => rw [h]; exact .silent rfl hmod
  | droppedBefore c h => rw [h]; exact .silent rfl (Nat.zero_le _)
  | droppedAfter c h => rw [h.1]; exact .silent rfl (Nat.zero_le _)
  | delivered h8 hfull _ _ h => rw [h]; exact .delivered _ rfl ⟨h8, by omega⟩ rfl

end Sys2Proof.Machine

namespace Sys2Proof.Machine

/-- Settles O13: a byte alone decodes to the selected row, which does what `FEED_BYTE` does. -/
theorem bareByteStepsAsFeedByte : Obligations.BareByteStepsAsFeedByte := by
  intro s b rest
  by_cases hcfg : s.cfg.wf = true
  · rw [step_presented hcfg rest (decode_rxByte s.widx b),
      step_presented hcfg rest (decode_encode_command rfl rfl s.widx)]
    exact exec_decodePosition_selected b { s with pending := rest }
  · have hrefused : ∀ p, step { s with pending := p } = .refused .illFormedConfig :=
      fun p => (step_eq_illFormedConfig_iff { s with pending := p }).2 hcfg
    rw [hrefused, hrefused]

/-- Settles O36: both operations answer the state after the selected transition. -/
theorem feedByteRunsTheSelectedTransition : Obligations.FeedByteRunsTheSelectedTransition := by
  intro b s hw
  refine ⟨_, exec_feedByte b hw, exec_selected_next b hw, rxByte_outside b s, rxByte_sameBufBut b s, ?_⟩
  cases rxByte_delivery b s with
  | silent hrx _ => exact .inl hrx
  | delivered f hrx _ _ => exact .inr ⟨f, hrx⟩

/-- Settles O41: a byte that is appended neither drops nor delivers, and every other ends in the parse reset. -/
theorem everyDropAndDeliveryReturnsToTheInitialPosition :
    Obligations.EveryDropAndDeliveryReturnsToTheInitialPosition := by
  intro b s h
  cases rxByte_cases b s with
  | appended hr => simp [hr] at h
  | latched _ hr _ => simp [hr] at h
  | droppedBefore c hr => rw [hr]; exact ⟨rfl, rfl⟩
  | droppedAfter c hr => rw [hr.1]; exact ⟨rfl, rfl⟩
  | delivered _ _ _ _ hr => rw [hr]; exact ⟨rfl, rfl⟩

end Sys2Proof.Machine
end

section
/-! ### The header positions (spec/42_frame_receiver.md R93 to R100) -/

namespace Sys2Proof.Machine

variable {b : Byte} {s : State}

theorem rxByte_preamble_match (h : s.widx < 3) (hb : b = s.cfg.preambleAt s.widx) :
    rxByte b s = (s.append b).accept := by
  rw [rxByte_preamble h, State.matchPreamble, if_pos hb]

theorem rxByte_preamble_mismatch (h : s.widx < 3) (hb : b ≠ s.cfg.preambleAt s.widx) :
    rxByte b s = s.drop .preambleMismatch := by
  rw [rxByte_preamble h, State.matchPreamble, if_neg hb]

/-- The row selected at a preamble position (42_frame_receiver.md R93 to R95). -/
theorem exec_preamble (hcfg : s.cfg.wf = true) (h : s.widx < 3) :
    ∃ t, exec (decodePosition (positionOf s.widx) b) s = .next t ∧
      (b = s.cfg.preambleAt s.widx → Appended b s t ∧ t.dlen = s.dlen) ∧
      (b ≠ s.cfg.preambleAt s.widx → Dropped s t ∧ ∀ i, t.readBuf i = s.readBuf i) := by
  have hroom := State.room_of_header hcfg (by omega)
  refine ⟨_, exec_selected_next b (by omega), fun hb => ?_, fun hb => ?_⟩
  · rw [rxByte_preamble_match h hb]
    exact ⟨s.append_appended b hroom, rfl⟩
  · rw [rxByte_preamble_mismatch h hb]
    exact ⟨s.rxReset_dropped, fun _ => rfl⟩

/-- The row selected at a header position without a check (42_frame_receiver.md R96 to R99). -/
theorem exec_unchecked (hcfg : s.cfg.wf = true) (h3 : 3 ≤ s.widx) (h7 : s.widx < 7) :
    ∃ t, exec (decodePosition (positionOf s.widx) b) s = .next t ∧ Appended b s t ∧ t.dlen = s.dlen := by
  have hroom := State.room_of_header hcfg (by omega)
  refine ⟨_, exec_selected_next b (by omega), ?_⟩
  rw [rxByte_unchecked h3 h7]
  exact ⟨s.append_appended b hroom, rfl⟩

theorem rxByte_lengthLow_latched (h : s.widx = 7) (hlen : (be16 (s.readBuf 6) b).toNat ≤ s.cfg.maxPayload) :
    rxByte b s = (s.append b).latchLength.accept := by
  rw [rxByte_lengthLow h, State.checkLength, State.lengthOversize, s.latched_dlen b h]
  exact if_neg (by simpa using hlen)

theorem rxByte_lengthLow_oversize (h : s.widx = 7) (hlen : s.cfg.maxPayload < (be16 (s.readBuf 6) b).toNat) :
    rxByte b s = (s.append b).latchLength.drop .oversizeLength := by
  rw [rxByte_lengthLow h, State.checkLength, State.lengthOversize, s.latched_dlen b h]
  exact if_pos (by simpa using hlen)

end Sys2Proof.Machine

namespace Sys2Proof.Machine

/-- Settles O29: the three positions are one lemma about the selected row. -/
theorem preamblePositionsMatchOrDrop : Obligations.PreamblePositionsMatchOrDrop := by
  intro b s hcfg
  refine ⟨fun hw => ?_, fun hw => ?_, fun hw => ?_⟩ <;>
    · have h := exec_preamble (b := b) hcfg (by omega)
      rw [hw] at h
      exact h

/-- Settles O30: the four positions are one lemma about the selected row. -/
theorem uncheckedHeaderPositionsAppend : Obligations.UncheckedHeaderPositionsAppend := by
  intro b s hcfg
  refine ⟨fun hw => ?_, fun hw => ?_, fun hw => ?_, fun hw => ?_⟩ <;>
    · have h := exec_unchecked (b := b) hcfg (by omega) (by omega)
      rw [hw] at h
      exact h

/-- Settles O31: the byte is appended before the length is latched, and the drop leaves the buffer as it then is. -/
theorem lengthLowLatchesOrDropsOversize : Obligations.LengthLowLatchesOrDropsOversize := by
  intro b s hcfg hw
  have hroom := State.room_of_header hcfg (by omega)
  have hexec := exec_selected_next b (Nat.lt_of_succ_lt hroom)
  have hsame := rxByte_sameBufBut b s
  rw [hw] at hexec hsame
  have hlatch := State.latchLength_appended (s.append_appended b hroom)
  have hstored : (s.append b).readBuf 7 = b := hw ▸ hlatch.stored
  obtain hlen | hlen := Nat.lt_or_ge s.cfg.maxPayload (be16 (s.readBuf 6) b).toNat
  · rw [rxByte_lengthLow_oversize hw hlen] at hexec hsame
    exact ⟨_, hexec, hstored, hsame, (absurd hlen <| Nat.not_lt.2 ·), fun _ => s.append_rxReset_dropped b⟩
  · rw [rxByte_lengthLow_latched hw hlen] at hexec hsame
    exact ⟨_, hexec, hstored, hsame, fun _ => ⟨hlatch, s.latched_dlen b hw⟩, (absurd hlen <| Nat.not_le.2 ·)⟩

/-- Settles O42: the drop of an idle receiver resets what is already in its initial position. -/
theorem extraneousByteLeavesTheIdleReceiverAsItWas : Obligations.ExtraneousByteLeavesTheIdleReceiverAsItWas := by
  intro b s hcfg hw hd hb
  have hidle : s.rxReset = s := State.ext rfl rfl hw.symm hd.symm rfl rfl rfl rfl rfl rfl rfl rfl
  have hroom := State.room_of_header hcfg (by omega)
  rw [exec_feedByte b (by omega), rxByte_preamble_mismatch (by omega) (by rwa [hw])]
  exact congrArg _ hidle

/-- Settles O43: the first byte is accumulated, and the second is no `PREAMBLE[1]`. -/
theorem failedPreambleByteIsNotTriedAgain : Obligations.FailedPreambleByteIsNotTriedAgain := by
  intro s hcfg hw hne
  have hroom := State.room_of_header hcfg (by omega)
  have hfirst := (Accumulating.start hw).preamble (by simp) (by simp; omega)
  have hw1 : (rxByte s.cfg.preamble0 s).state.widx = 1 := hfirst.widx
  have hsecond : s.cfg.preamble0 ≠ (rxByte s.cfg.preamble0 s).state.cfg.preambleAt 1 := by
    rw [(rxByte_outside _ s).cfg]
    exact hne.symm
  refine ⟨_, exec_feedBuf _ (by omega), ?_⟩
  rw [rxAll, rxAll, rxAll, rxByte_preamble_mismatch (by omega) (by rwa [hw1])]
  exact ⟨rfl, rfl, hfirst.rxOut⟩

end Sys2Proof.Machine
end

section
/-! ### The accumulation phase and validation (spec/42_frame_receiver.md R101 to R108) -/

namespace Sys2Proof.Machine

variable {b : Byte} {s : State}

/-- The last byte delivers the whole frame when the checksum and the address are right, and resets the receiver in every
case (42_frame_receiver.md R102 to R107). -/
theorem rxAcc_last (h8 : 8 ≤ s.widx) (hlast : s.widx = 9 + s.dlen.toNat) (hw : s.widx < s.cfg.cap) :
    (rxAcc b s).state =
      if crc16 (s.bufPrefix (8 + s.dlen.toNat)) = be16 (s.readBuf (8 + s.dlen.toNat)) b ∧
          (s.readBuf 4 = s.ownAddr ∨ s.readBuf 4 = s.bcastAddr)
      then ((s.append b).deliver (s.bufPrefix (9 + s.dlen.toNat) ++ [b])).rxReset
      else (s.append b).rxReset := by
  obtain ⟨hinside, hexpected, hreceived, haddr, hframe⟩ := s.append_last b h8 hlast hw
  rw [Bool.eq_iff_iff, Bool.or_eq_true, beq_iff_eq, beq_iff_eq] at haddr
  rw [rxAcc_complete b s hlast, ← hexpected, ← hreceived, ← hframe]
  rcases (s.append b).validate_cases with ⟨hbad, _⟩ | ⟨_, hcrc, hv⟩ | ⟨_, _, hother, hv⟩ | ⟨_, hcrc, hhere, hv⟩
  · rw [hinside] at hbad
    cases hbad
  · rw [hv, if_neg fun hc => hcrc hc.1]
    rfl
  · rw [← Bool.not_eq_true, haddr] at hother
    rw [hv, if_neg fun hc => hother hc.2]
    rfl
  · rw [hv, if_pos ⟨hcrc, haddr.1 hhere⟩]
    rfl

theorem State.addressMatches_iff (s : State) :
    s.addressMatches = true ↔ s.readBuf 4 = s.ownAddr ∨ s.readBuf 4 = s.bcastAddr := by
  rw [State.addressMatches, Bool.or_eq_true, beq_iff_eq, beq_iff_eq]

end Sys2Proof.Machine

namespace Sys2Proof.Machine

/-- Settles O32: an append either way, whose new write index is one more or, at the last index, 0. -/
theorem accumulationAppendsUntilTheFrameIsComplete : Obligations.AccumulationAppendsUntilTheFrameIsComplete := by
  intro b s h8 hmore
  have hexec : s.widx < s.cfg.cap → exec (.rxAcc b) s = .next (s.append b) := fun hw => by
    rw [exec_rxAcc b h8 hw, rxAcc_incomplete b s hmore]
    rfl
  refine ⟨fun hroom => ⟨_, hexec (by omega), s.append_appended b hroom, rfl⟩, fun hend => ?_⟩
  refine ⟨_, hexec (by omega), s.append_outside b, rfl, ?_, s.append_sameBufBut b, ?_, rfl⟩
  · rw [State.readBuf_append, if_pos rfl]
  · rw [State.append_widx, hend, Nat.mod_self]

/-- Settles O33: the delivery is the one thing that the two outcomes of validation do not share. -/
theorem lastByteValidatesAndDeliversOrDrops : Obligations.LastByteValidatesAndDeliversOrDrops := by
  intro b s h8 hlast hw
  have hstored : (s.append b).readBuf s.widx = b := by rw [State.readBuf_append, if_pos rfl]
  refine ⟨_, exec_rxAcc b h8 hw, ?_⟩
  rw [rxAcc_last h8 hlast hw]
  split
  · exact ⟨by constructor <;> rfl, rfl, rfl, hstored, s.append_sameBufBut b, rfl⟩
  · exact ⟨by constructor <;> rfl, rfl, rfl, hstored, s.append_sameBufBut b, rfl⟩

/-- Settles O34: the byte is appended and the receiver reset. -/
theorem countPastTheFrameSizeIsDropped : Obligations.CountPastTheFrameSizeIsDropped := by
  intro b s h8 hw hpast
  have hdrop := rxAcc_past b s hpast
  refine ⟨_, exec_rxAcc b h8 hw, ?_⟩
  rw [rxByte_of_ge b s h8, hdrop]
  exact ⟨s.append_rxReset_dropped b, by simp [State.readBuf_append], s.append_sameBufBut b, rfl⟩

/-- Settles O35: the four outcomes of validation, each under its own condition. -/
theorem validationChecksCapacityThenCrcThenAddress : Obligations.ValidationChecksCapacityThenCrcThenAddress := by
  intro s
  have hindex : s.crcIndexOutside = true ↔ s.cfg.cap ≤ 9 + s.dlen.toNat := decide_eq_true_iff
  have haddr := s.addressMatches_iff.not.trans not_or
  rw [← not_le, ← hindex, ← haddr]
  -- the statement's other terms are the tests of the model written out
  change _ ∧ (_ ↔ _ ∧ s.expectedCrc ≠ s.receivedCrc) ∧ (_ ↔ _ ∧ s.expectedCrc = s.receivedCrc ∧ _) ∧
    (_ → _ = s.rxReset)
  rcases s.validate_cases with ⟨h, hv⟩ | ⟨h, hcrc, hv⟩ | ⟨h, hcrc, hother, hv⟩ | ⟨h, hcrc, hhere, hv⟩
  · simp [hv, h]
  · simp [hv, h, hcrc]
  · simp [hv, h, hcrc, hother]
  · simp [hv, h, hcrc, hhere]

end Sys2Proof.Machine
end

section
/-! ### Many bytes (spec/42_frame_receiver.md R110, R112) -/

namespace Sys2Proof.Machine

/-- The receive trace only grows at its end. -/
theorem rxAll_rxOut (bytes : List Byte) (s : State) : ∃ new, (rxAll bytes s).rxOut = s.rxOut ++ new := by
  induction bytes generalizing s with
  | nil => exact ⟨[], (List.append_nil _).symm⟩
  | cons b rest ih =>
    obtain ⟨new, hnew⟩ := ih (rxByte b s).state
    rw [rxAll, hnew]
    cases rxByte_delivery b s with
    | silent hrx _ => exact ⟨new, by rw [hrx]⟩
    | delivered f hrx _ _ => exact ⟨f :: new, by rw [hrx, ← List.append_cons]⟩

/-- A delivery spends ten accumulated bytes: of those at hand when the run begins, at most nine count, for the first
delivery takes them all. -/
theorem rxAll_deliveries (bytes : List Byte) (s : State) :
    10 * (rxAll bytes s).rxOut.length ≤ 10 * s.rxOut.length + min 9 s.widx + bytes.length := by
  induction bytes generalizing s with
  | nil => exact Nat.le_add_right _ _
  | cons b rest ih =>
    have hrest := ih (rxByte b s).state
    rw [rxAll, List.length_cons]
    cases rxByte_delivery b s with
    | silent hrx hw =>
      rw [hrx] at hrest
      omega
    | delivered f hrx hlast hw =>
      obtain ⟨h8, hfull⟩ := hlast
      rw [hrx, hw, List.length_append, List.length_singleton] at hrest
      omega

end Sys2Proof.Machine

namespace Sys2Proof.Machine

/-- Settles O37: one command, one byte at a time and two commands all run the transitions of the bytes in order. -/
theorem feedBufFeedsEachByteInOrder : Obligations.FeedBufFeedsEachByteInOrder := by
  refine ⟨fun _ => rfl, fun data s hw => ⟨_, exec_feedBuf data hw, feedEach_eq data s hw⟩, fun x y s hw => ?_⟩
  refine ⟨_, exec_feedBuf x hw, ?_⟩
  rw [exec_feedBuf _ hw, rxAll_append, exec_feedBuf y (rxAll_inside x s hw)]

/-- Settles O38: every transition is confined to the receiver and its trace. -/
theorem feedingChangesTheReceiverAlone : Obligations.FeedingChangesTheReceiverAlone := by
  intro data s t h
  obtain ⟨rfl, -⟩ := execFeedBuf_eq_next data s t h
  exact ⟨rxAll_outside data s, rxAll_rxOut data s⟩

/-- Settles O53: the bytes fed, and those at hand before, pay ten for each delivery. -/
theorem deliveriesAreBoundedByTheBytesFed : Obligations.DeliveriesAreBoundedByTheBytesFed := by
  intro data s t _ h
  obtain ⟨rfl, -⟩ := execFeedBuf_eq_next data s t h
  have hpaid := rxAll_deliveries data s
  refine ⟨fun hne => ?_, fun hw => ?_⟩
  · have hpos := List.length_pos_iff.2 hne
    omega
  · rw [hw] at hpaid
    omega

end Sys2Proof.Machine
end

section
/-! ### The write index in a reachable state (spec/42_frame_receiver.md R109, R111) -/

namespace Sys2Proof.Machine

variable {s : State}

/-- The write index of a reachable state is inside the longest frame (10_state.md R24). -/
theorem State.Inv.widx_lt (h : s.Inv) : s.widx < 10 + s.cfg.maxPayload := by
  rcases h.position with ⟨h7, _⟩ | ⟨_, hend, hlen⟩ <;> omega

/-- In a reachable state a byte returns the receiver to its initial position or moves it on by one. -/
theorem State.Inv.rxByte_idle_or_advanced (h : s.Inv) (b : Byte) :
    ((rxByte b s).state.widx = 0 ∧ (rxByte b s).state.dlen = 0) ∨ (rxByte b s).state.widx = s.widx + 1 := by
  have hadv := s.append_widx_of_room b h.room
  cases rxByte_progress b s with
  | idle hw hd => exact .inl ⟨hw, hd⟩
  | header _ _ ht => exact .inr (ht ▸ hadv)
  | latched _ _ ht => exact .inr (ht ▸ hadv)
  | accumulated _ _ ht => exact .inr (ht ▸ hadv)

/-- As many bytes as take the write index to the end of the longest frame return the receiver to its initial position on
the way. -/
theorem rxAll_idle_of_length (h : s.Inv) (bytes : List Byte) (hlen : 10 + s.cfg.maxPayload ≤ s.widx + bytes.length) :
    ∃ k, 1 ≤ k ∧ k ≤ bytes.length ∧ (rxAll (bytes.take k) s).widx = 0 ∧ (rxAll (bytes.take k) s).dlen = 0 := by
  induction bytes generalizing s with
  | nil => exact absurd hlen (Nat.not_le.2 h.widx_lt)
  | cons b rest ih =>
    rw [List.length_cons] at hlen ⊢
    rcases h.rxByte_idle_or_advanced b with hidle | hadv
    · exact ⟨1, by omega, by omega, hidle⟩
    · obtain ⟨k, _, hk, hidle⟩ := ih (h.rxByte_state b) (by rw [(rxByte_outside b s).cfg, hadv]; omega)
      exact ⟨k + 1, by omega, by omega, hidle⟩

end Sys2Proof.Machine

namespace Sys2Proof.Machine

/-- Settles O48: the invariant leaves room for one more byte. -/
theorem writeIndexNeverWraps : Obligations.WriteIndexNeverWraps := by
  intro b s h
  have hroom := h.room
  refine ⟨hroom, s.append_widx_of_room b hroom, _, exec_feedByte b (by omega), ?_⟩
  exact (h.rxByte_idle_or_advanced b).imp_left And.left

/-- Settles O54: from any write index, `10 + MAX_PAYLOAD` bytes reach the end of the longest frame. -/
theorem receiverReturnsToItsInitialPositionInTime : Obligations.ReceiverReturnsToItsInitialPositionInTime := by
  intro bytes s h hlen
  obtain ⟨k, hpos, hk, hw, hd⟩ := rxAll_idle_of_length h bytes (by omega)
  have hroom := h.room
  exact ⟨k, _, hpos, hk, exec_feedBuf _ (by omega), hw, hd⟩

end Sys2Proof.Machine
end

section
/-! ### What is delivered (spec/42_frame_receiver.md R102, R107)

In a reachable state the bytes accumulated before the checksum are the body of a frame, so that what passes validation is
a whole frame of the protocol. -/

namespace Sys2Proof.Machine

variable {s t : State}

/-- The bytes of `buf` at the indices of the payload. -/
def State.bufPayload (s : State) : List Byte := (List.range s.dlen.toNat).map fun i => s.readBuf (8 + i)

@[simp] theorem State.bufPayload_length (s : State) : s.bufPayload.length = s.dlen.toNat := by
  simp [State.bufPayload]

theorem State.bufPrefix_add_dlen (s : State) : s.bufPrefix (8 + s.dlen.toNat) = s.bufPrefix 8 ++ s.bufPayload := by
  rw [State.bufPrefix, List.range_add, List.map_append, List.map_map]
  rfl

/-- With the preamble and the length that the invariant speaks of, the bytes before the checksum are a frame's body. -/
theorem State.AccumulatedOk.bufPrefix_eq_frameBody (h : s.AccumulatedOk) (h8 : 8 ≤ s.widx) :
    s.bufPrefix (8 + s.dlen.toNat) =
      frameBody s.cfg (s.readBuf 3) (s.readBuf 4) (s.readBuf 5) s.bufPayload := by
  have hlen : BitVec.ofNat 16 s.bufPayload.length = be16 (s.readBuf 6) (s.readBuf 7) := by
    rw [State.bufPayload_length, BitVec.ofNat_toNat, BitVec.setWidth_eq]
    exact h.latched h8
  rw [State.bufPrefix_add_dlen, frameBody, hlen, hiByte_be16, loByte_be16, ← h.first (by omega), ← h.second (by omega),
    ← h.third (by omega)]
  rfl

/-- The body with a checksum field that holds its checksum is a whole frame (30_encoding.md R50). -/
theorem frameBody_append_field {cfg : Config} {src tgt type hi lo : Byte} {payload : List Byte}
    (hcrc : crc16 (frameBody cfg src tgt type payload) = be16 hi lo) :
    frameBody cfg src tgt type payload ++ [hi, lo] = wireFrame cfg src tgt type payload := by
  rw [wireFrame, hcrc, crcField_be16]

/-- What a byte delivers in a reachable state: nothing, or one frame addressed to this node. -/
theorem State.Inv.rxByte_delivers (h : s.Inv) (b : Byte) :
    (rxByte b s).state.rxOut = s.rxOut ∨
    ∃ (src tgt type : Byte) (payload : List Byte),
      payload.length ≤ s.cfg.maxPayload ∧ (tgt = s.ownAddr ∨ tgt = s.bcastAddr) ∧
      (rxByte b s).state.rxOut = s.rxOut ++ [wireFrame s.cfg src tgt type payload] := by
  cases rxByte_delivery b s with
  | silent hrx _ => exact .inl hrx
  | delivered f _ hlast _ =>
    obtain ⟨h8, hfull⟩ := hlast
    have hroom := h.room
    have hlen : s.dlen.toNat ≤ s.cfg.maxPayload := by have := h.widx_lt; omega
    rw [rxByte_of_ge b s h8, rxAcc_last h8 hfull (by omega)]
    split
    · rename_i hok
      obtain ⟨hcrc, haddr⟩ := hok
      have hbody := h.accumulated.bufPrefix_eq_frameBody h8
      have hframe := calc
        s.bufPrefix (9 + s.dlen.toNat) ++ [b]
        _ = s.bufPrefix (8 + s.dlen.toNat + 1) ++ [b] := by rw [Nat.add_right_comm]
        _ = s.bufPrefix (8 + s.dlen.toNat) ++ [s.readBuf (8 + s.dlen.toNat), b] := by
          rw [State.bufPrefix_succ, List.append_assoc, List.singleton_append]
        _ = wireFrame s.cfg (s.readBuf 3) (s.readBuf 4) (s.readBuf 5) s.bufPayload := by
          rw [hbody, frameBody_append_field (hbody ▸ hcrc)]
      exact .inr ⟨_, _, _, _, s.bufPayload_length.trans_le hlen, haddr, congrArg (s.rxOut ++ [·]) hframe⟩
    · exact .inl rfl

theorem State.EmittedOk.rxByte_state (h : s.EmittedOk) (hs : s.Inv) (b : Byte) : (rxByte b s).state.EmittedOk := by
  obtain ⟨hrx, htx⟩ := h
  have hout := rxByte_outside b s
  rw [State.EmittedOk, hout.cfg, hout.txOut]
  refine ⟨?_, htx⟩
  rcases hs.rxByte_delivers b with hnone | ⟨src, tgt, type, payload, hlen, -, hone⟩
  · rwa [hnone]
  · rw [hone, List.forall_mem_append, List.forall_mem_singleton]
    exact ⟨hrx, src, tgt, type, payload, hlen, rfl⟩

theorem State.EmittedOk.rxAll (h : s.EmittedOk) (hs : s.Inv) (bytes : List Byte) : (rxAll bytes s).EmittedOk := by
  induction bytes generalizing s with
  | nil => exact h
  | cons b rest ih => exact ih (h.rxByte_state hs b) (hs.rxByte_state b)

/-- A successful `SEND` transmits one more frame of the protocol (41_frame_serializer.md R81). -/
theorem State.EmittedOk.buildAndTransmit (h : s.EmittedOk) (dest type : Byte) {n : Half} {payload : List Byte}
    (hn : n.toNat ≤ s.cfg.maxPayload) (hlen : n.toNat = payload.length) :
    (s.buildAndTransmit dest type n payload).EmittedOk := by
  obtain ⟨hrx, htx⟩ := h
  rw [s.buildAndTransmit_eq dest type hlen, State.EmittedOk, List.forall_mem_append, List.forall_mem_singleton]
  exact ⟨hrx, htx, s.ownAddr, dest, type, payload, hlen ▸ hn, rfl⟩

theorem exec_keeps_emitted {i : Instr} (h : s.EmittedOk) (hs : s.Inv) (hx : exec i s = .next t) : t.EmittedOk := by
  cases exec_cases i s t hx with
  | setOwn a _ ht => exact ht ▸ h
  | setBcast a _ ht => exact ht ▸ h
  | fedByte b _ _ ht => exact ht ▸ h.rxByte_state hs b
  | fedBuf data _ _ ht => exact ht ▸ h.rxAll hs data
  | sent dest type n p _ ht =>
    rcases ht with rfl | rfl | ⟨hn, hlen, rfl⟩
    · exact h
    · exact h
    · exact h.buildAndTransmit dest type hn hlen
  | summed data _ ht => exact ht ▸ h

end Sys2Proof.Machine

namespace Sys2Proof.Machine

/-- Settles O49: what validation lets pass is a frame addressed to this node. -/
theorem deliveredFramesAreCorrectAndAddressedHere : Obligations.DeliveredFramesAreCorrectAndAddressedHere := by
  intro b s t h hx
  obtain ⟨-, rfl⟩ := State.guardBuf_eq_next _ _ _ hx
  exact h.rxByte_delivers b

/-- Settles O47: a step holds the traces, empties them, or runs one operation. -/
theorem stepKeepsEveryEmittedFrameAFrame : Obligations.StepKeepsEveryEmittedFrameAFrame := by
  intro s t hs h hstep
  obtain ⟨-, hcases⟩ := step_cases s t hstep
  cases hcases with
  | idle _ ht => exact ht ▸ h
  | reset rest _ ht => simp [ht, State.EmittedOk]
  | ran e rest i _ _ hx => exact exec_keeps_emitted (s := { s with pending := rest }) h (hs.with_pending rest) hx

end Sys2Proof.Machine
end

section
/-! ### Whole frames fed from write index 0 (spec/42_frame_receiver.md R111 (b), R114) -/

namespace Sys2Proof.Machine

/-- Of the parameters, a frame shows the preamble alone. -/
theorem frameBody_congr {c c' : Config} (h0 : c'.preamble0 = c.preamble0) (h1 : c'.preamble1 = c.preamble1)
    (h2 : c'.preamble2 = c.preamble2) (src tgt type : Byte) (payload : List Byte) :
    frameBody c' src tgt type payload = frameBody c src tgt type payload := by
  rw [frameBody, frameBody, h0, h1, h2]

theorem wireFrame_congr {c c' : Config} (h0 : c'.preamble0 = c.preamble0) (h1 : c'.preamble1 = c.preamble1)
    (h2 : c'.preamble2 = c.preamble2) (src tgt type : Byte) (payload : List Byte) :
    wireFrame c' src tgt type payload = wireFrame c src tgt type payload := by
  rw [wireFrame, wireFrame, frameBody_congr h0 h1 h2]

/-- All of a frame but its last byte is the body and the first byte of the checksum field. -/
theorem wireFrame_dropLast (cfg : Config) (src tgt type : Byte) (payload : List Byte) :
    (wireFrame cfg src tgt type payload).dropLast =
      frameBody cfg src tgt type payload ++ [hiByte (crc16 (frameBody cfg src tgt type payload))] := by
  rw [wireFrame, List.dropLast_append_of_ne_nil (by simp [crcField])]
  rfl

/-- A `SEND` that answered `Ok` transmitted one wire frame with the payload it read (41_frame_serializer.md R81). -/
theorem execSend_transmitted {dest type : Byte} {n : Half} {p : Option (List Byte)} {s t : State}
    (h : execSend dest type n p s = .next t) (hok : t.resOut = s.resOut ++ [.send .ok]) :
    n.toNat = (payloadRead n p).length ∧
      t.txOut = s.txOut ++ [wireFrame s.cfg s.ownAddr dest type (payloadRead n p)] := by
  rcases execSend_eq_next dest type n p s t h with rfl | rfl | ⟨-, hlen, rfl⟩
  · simp at hok
  · simp at hok
  · exact ⟨hlen, congrArg State.txOut (s.buildAndTransmit_eq dest type hlen)⟩

end Sys2Proof.Machine

namespace Sys2Proof.Machine

/-- Settles O50: all but the last byte is accumulated, and the last byte ends the frame. -/
theorem completeFrameIsDeliveredExactlyWhenRightAndAddressedHere :
    Obligations.CompleteFrameIsDeliveredExactlyWhenRightAndAddressedHere := by
  intro s src tgt type h l payload hcfg hw hp
  have hroom := State.room_of_header hcfg (by omega)
  obtain ⟨hout, hrx, hidle, hd⟩ := rxAll_frameBody_frameEnded hcfg hw src tgt type hp h l
  refine ⟨⟨_, feedEach_eq _ s (by omega), (accumulating_frameBody hcfg hw src tgt type hp h).rxOut⟩, ?_⟩
  refine ⟨_, feedEach_eq _ s (by omega), hout, hidle, hd, ?_⟩
  rw [hrx]
  split
  · rfl
  · exact List.append_nil _

/-- Settles O52: what is transmitted is the wire frame of either block, and is received as one. -/
theorem sentFrameIsReceivedByteForByte : Obligations.SentFrameIsReceivedByteForByte := by
  intro sender sent receiver dest type n p hsend hok hcfg hw h0 h1 h2 hn haddr
  obtain ⟨hlen, htx⟩ := execSend_transmitted hsend hok
  have hroom := State.room_of_header hcfg (by omega)
  rw [hlen] at hn
  rw [← wireFrame_congr h0 h1 h2] at htx
  obtain ⟨-, hrx, hidle, -⟩ :=
    rxAll_wireFrame_frameEnded hcfg hw sender.ownAddr dest type hn (haddr.imp Eq.symm Eq.symm)
  refine ⟨_, _, _, htx, ?_, feedEach_eq _ receiver (by omega), ?_, feedEach_eq _ receiver (by omega), hrx, hidle⟩
  · rw [wireFrame_length, hlen]
  · rw [wireFrame_dropLast]
    exact (accumulating_frameBody hcfg hw sender.ownAddr dest type hn _).rxOut

end Sys2Proof.Machine
end

section
/-! ### The addressing configuration (spec/43_addressing_config.md R120, R121)

Each operation is the assignment of its pseudocode: it has no check, so there is no case to split. -/

namespace Sys2Proof.Machine

/-- Settles O21: the command is the one assignment to `ownAddr`. -/
theorem setOwnWritesOwnAddrAlone : Obligations.SetOwnWritesOwnAddrAlone :=
  fun _ _ => rfl

/-- Settles O22: the command is the one assignment to `bcastAddr`. -/
theorem setBcastWritesBcastAddrAlone : Obligations.SetBcastWritesBcastAddrAlone :=
  fun _ _ => rfl

end Sys2Proof.Machine
end

section
/-! ### Drops (spec/60_exceptions.md R131 to R133)

What a drop leaves behind, whatever its cause; then the cause of a byte's drop for each range of `widx`, which in a
reachable state are all there is. -/

namespace Sys2Proof.Machine

variable {b : Byte} {s : State}

/-- A byte that drops is appended or not, and the receiver reset. -/
theorem rxByte_dropped {c : DropCause} (h : (rxByte b s).cause = some c) : Dropped s (rxByte b s).state := by
  cases rxByte_cases b s with
  | appended hr => simp [hr] at h
  | latched _ hr _ => simp [hr] at h
  | droppedBefore c' hr => rw [hr]; exact s.rxReset_dropped
  | droppedAfter c' hr => rw [hr.1]; exact s.append_rxReset_dropped b
  | delivered _ _ _ _ hr => simp [hr] at h

/-! #### The cause, by write index -/

theorem rxByte_cause_preamble (h : s.widx < 3) :
    (rxByte b s).cause = if b = s.cfg.preambleAt s.widx then none else some .preambleMismatch := by
  split_ifs with hb
  · rw [rxByte_preamble_match h hb, State.accept_cause]
  · rw [rxByte_preamble_mismatch h hb, State.drop_cause]

theorem rxByte_cause_unchecked (h3 : 3 ≤ s.widx) (h7 : s.widx < 7) : (rxByte b s).cause = none := by
  rw [rxByte_unchecked h3 h7, State.accept_cause]

theorem rxByte_cause_lengthLow (h : s.widx = 7) :
    (rxByte b s).cause =
      if s.cfg.maxPayload < (be16 (s.readBuf 6) b).toNat then some .oversizeLength else none := by
  split_ifs with hlen
  · rw [rxByte_lengthLow_oversize h hlen, State.drop_cause]
  · rw [rxByte_lengthLow_latched h (Nat.not_lt.1 hlen), State.accept_cause]

theorem rxByte_cause_incomplete (h8 : 8 ≤ s.widx) (hmore : s.widx + 1 < 10 + s.dlen.toNat) :
    (rxByte b s).cause = none := by
  rw [rxByte_of_ge b s h8, rxAcc_incomplete b s hmore, State.accept_cause]

/-- At the last byte the checksum is tested before the address (42_frame_receiver.md R102). -/
theorem rxByte_cause_last (hlast : s.widx = 9 + s.dlen.toNat) (hw : s.widx < s.cfg.cap) :
    (rxByte b s).cause =
      if crc16 (s.bufPrefix (8 + s.dlen.toNat)) = be16 (s.readBuf (8 + s.dlen.toNat)) b then
        if s.readBuf 4 = s.ownAddr ∨ s.readBuf 4 = s.bcastAddr then none else some .addressMismatch
      else some .crcMismatch := by
  have h8 : 8 ≤ s.widx := by omega
  obtain ⟨hinside, hexpected, hreceived, haddr, -⟩ := s.append_last b h8 hlast hw
  rw [Bool.eq_iff_iff, Bool.or_eq_true, beq_iff_eq, beq_iff_eq] at haddr
  rw [rxByte_of_ge b s h8, rxAcc_complete b s hlast, ← hexpected, ← hreceived]
  rcases (s.append b).validate_cases with ⟨hbad, _⟩ | ⟨_, hcrc, hv⟩ | ⟨_, hcrc, hother, hv⟩ | ⟨_, hcrc, hhere, hv⟩
  · rw [hinside] at hbad
    cases hbad
  · rw [hv, if_neg hcrc, State.drop_cause]
  · rw [← Bool.not_eq_true, haddr] at hother
    rw [hv, if_pos hcrc, if_neg hother, State.drop_cause]
  · rw [hv, if_pos hcrc, if_pos (haddr.1 hhere), State.accept_cause]

/-! #### Reachable states -/

/-- The ranges of `widx` that R24 leaves: the count never passes the frame size. -/
theorem State.Inv.widx_cases (h : s.Inv) :
    s.widx < 3 ∨ (3 ≤ s.widx ∧ s.widx < 7) ∨ s.widx = 7 ∨ (8 ≤ s.widx ∧ s.widx + 1 < 10 + s.dlen.toNat) ∨
      s.widx = 9 + s.dlen.toNat := by
  rcases h.position with ⟨_, _⟩ | ⟨_, _, _⟩ <;> omega

/-- The three preamble conditions of R132 are one, about the byte expected at `widx`. -/
theorem State.preambleMismatch_iff :
    (s.widx = 0 ∧ b ≠ s.cfg.preamble0) ∨ (s.widx = 1 ∧ b ≠ s.cfg.preamble1) ∨
      (s.widx = 2 ∧ b ≠ s.cfg.preamble2) ↔ s.widx < 3 ∧ b ≠ s.cfg.preambleAt s.widx := by
  constructor
  · rintro (⟨hw, hb⟩ | ⟨hw, hb⟩ | ⟨hw, hb⟩) <;> rw [hw] <;> exact ⟨by omega, hb⟩
  · rintro ⟨h, hb⟩
    obtain hw | hw | hw : s.widx = 0 ∨ s.widx = 1 ∨ s.widx = 2 := by omega
    · exact .inl ⟨hw, by rwa [hw] at hb⟩
    · exact .inr (.inl ⟨hw, by rwa [hw] at hb⟩)
    · exact .inr (.inr ⟨hw, by rwa [hw] at hb⟩)

end Sys2Proof.Machine

namespace Sys2Proof.Machine

/-- Settles O39: a drop is the parse reset, after the byte was stored at `widx` or nowhere. -/
theorem dropsAreSilent : Obligations.DropsAreSilent :=
  fun b s _ h => ⟨rxByte_dropped h, rxByte_sameBufBut b s, exec_feedByte b⟩

/-- Settles O40: in each range of `widx` the cause is known, and at most the conditions of that range can hold. -/
theorem dropCausesAriseExactlyUnderTheirConditions : Obligations.DropCausesAriseExactlyUnderTheirConditions := by
  intro b s h
  have hroom := h.room
  rw [State.preambleMismatch_iff, ← not_or]
  obtain hp | ⟨h3, h7⟩ | h7 | ⟨h8, hmore⟩ | hlast := h.widx_cases
  · have hnot7 : s.widx ≠ 7 := by omega
    have hnotLast : s.widx ≠ 9 + s.dlen.toNat := by omega
    simp [rxByte_cause_preamble hp, hp, hnot7, hnotLast]
  · have hnot7 : s.widx ≠ 7 := by omega
    have hnotLast : s.widx ≠ 9 + s.dlen.toNat := by omega
    simp [rxByte_cause_unchecked h3 h7, h3, hnot7, hnotLast]
  · have hnotLast : 7 ≠ 9 + s.dlen.toNat := by omega
    simp [rxByte_cause_lengthLow h7, h7, hnotLast]
  · have hnot3 : 3 ≤ s.widx := by omega
    have hnot7 : s.widx ≠ 7 := by omega
    have hnotLast : s.widx ≠ 9 + s.dlen.toNat := by omega
    simp [rxByte_cause_incomplete h8 hmore, hnot3, hnot7, hnotLast]
  · have hnot3 : 3 ≤ s.widx := by omega
    have hnot7 : s.widx ≠ 7 := by omega
    rw [rxByte_cause_last hlast (by omega)]
    split_ifs with hcrc haddr
    · simp [hnot3, hnot7, hcrc, haddr]
    · simp [hnot3, hnot7, eq_true hlast, hcrc, haddr]
    · simp [hnot3, hnot7, eq_true hlast, hcrc]

/-- Settles O4: it is the idle case of a step. -/
theorem stepHoldsTheStateWhenNothingIsPresented : Obligations.StepHoldsTheStateWhenNothingIsPresented :=
  fun _ => step_idle

end Sys2Proof.Machine
end


section
/-! ### Hardware reset as an input (spec/70_reset_and_hazards.md R150)

What the two memories read as after it: nothing in them is listed, so every byte is a free value of the new epoch. -/

namespace Sys2Proof.Machine

@[simp] theorem State.readBuf_hardwareReset (s : State) (i : Nat) :
    s.hardwareReset.readBuf i = freeBufByte s.hardwareReset.epoch i := by
  simp [State.readBuf]

@[simp] theorem State.readTx_hardwareReset (s : State) (i : Nat) :
    s.hardwareReset.readTx i = freeTxByte s.hardwareReset.epoch i := by
  simp [State.readTx]

theorem State.hardwareReset_epoch_ne (s : State) : s.hardwareReset.epoch ≠ s.epoch := by
  rw [State.hardwareReset_epoch]
  exact Nat.succ_ne_self s.epoch

/-- Settles O2: the step takes the reset off the inputs and answers the hardware reset of what is left. -/
theorem hardwareResetInputResetsTheBlock : Obligations.HardwareResetInputResetsTheBlock := by
  intro s rest hcfg hp
  let s' : State := { s with pending := rest }
  exact ⟨s'.hardwareReset, step_hwReset hcfg hp, s'.hardwareReset_cfg, s'.hardwareReset_widx, s'.hardwareReset_dlen,
    s'.hardwareReset_ownAddr, s'.hardwareReset_bcastAddr, s'.hardwareReset_rxOut, s'.hardwareReset_txOut,
    s'.hardwareReset_resOut, s'.hardwareReset_pending, s'.hardwareReset_epoch_ne, s'.readBuf_hardwareReset,
    s'.readTx_hardwareReset⟩

end Sys2Proof.Machine
end
